-- ==== Sys2Proof/Word.lean ====
section
/-! DEFINITION. The one word type of the block: the byte (spec rule R5, BYTE_W = ADDR_W = LEN_W = 8). -/

namespace Sys2Proof

/-- A byte: a frame element, a register location's content, a register address or a transfer length (rule R5). -/
abbrev Byte := BitVec 8

end Sys2Proof
end

