-- ==== Sys2Proof/Machine/Bytes.lean ====
section
/-! DEFINITION. Bit slices of a byte and byte lists of a number (spec 00_scope.md section 5). -/

namespace Sys2Proof.Machine

/-- The byte holding the number `v`, its low 8 bits. -/
def byteOf (v : Nat) : Byte := BitVec.ofNat 8 v

/-- `b[7:4]` as a number. -/
def nibHi (b : Byte) : Nat := (b.extractLsb' 4 4).toNat

/-- `b[3:0]` as a number. -/
def nibLo (b : Byte) : Nat := (b.extractLsb' 0 4).toNat

/-- `be_N(v)`: the `n` bytes of `v`, most significant first (00_scope.md section 5). -/
def be (n v : Nat) : List Byte := (List.range n).map fun i => byteOf (v >>> (8 * (n - 1 - i)))

/-- A single bit as the number 0 or 1. -/
def bitNat (c : Bool) : Nat := if c then 1 else 0

end Sys2Proof.Machine
end

