-- ==== Sys2Proof/Machine/Params.lean ====
section
/-! DEFINITION. The fixed parameters of the block (spec 00_scope.md rule R5). -/

namespace Sys2Proof.Machine

/-- ST_OK (rule R105). -/
abbrev stOk : Byte := 0x00#8
/-- ST_FAIL (rule R106). -/
abbrev stFail : Byte := 0x01#8
/-- ST_ILLEGAL (rule R107). -/
abbrev stIllegal : Byte := 0x02#8
/-- ST_NOMODE (rule R109). -/
abbrev stNomode : Byte := 0x03#8
/-- ST_SHORT (rule R108). -/
abbrev stShort : Byte := 0x04#8

/-- PRIME_LO, the lowest address whose read is primed. -/
abbrev primeLo : Nat := 0x30
/-- PRIME_HI, the highest address whose read is primed. -/
abbrev primeHi : Nat := 0x79

/-- FRAC_MAX, the largest documented fractional-minutes value. -/
abbrev fracMax : Nat := 99999
/-- PACK_SCALE: the packed-value output is the packed value times this. -/
abbrev packScale : Nat := 100000
/-- DD_SCALE: the decimal-degrees output is the decimal degrees times this. -/
abbrev ddScale : Nat := 6000000
/-- FIX3_SCALE: the 3-byte output is the decoded value times this. -/
abbrev fix3Scale : Nat := 100
/-- FRAC_MSB_FIRST: the three fraction bytes arrive most significant first (decision D11, log entry 9). -/
abbrev fracMsbFirst : Bool := true

/-- GETST's MODE byte while no mode is set (rule R61). -/
abbrev modeUnset : Byte := 0xFF#8

end Sys2Proof.Machine
end

