-- ==== Sys2Proof/Machine/Flags.lean ====
section
/-! DEFINITION. The FLAGS word and the condition of each flag, per operation (spec 10_state.md rules R11, R12). -/

namespace Sys2Proof.Machine

/-- `{000000, RNG, INV}` (rule R12). -/
def packFlags (rng inv : Bool) : Byte := byteOf (2 * bitNat rng + bitNat inv)

/-- The bits of FLAGS that exist: INV and RNG; bits 7:2 are hard-wired 0 (rule R11). -/
def flagsMask : Byte := 0x03#8

/-- BCD2BIN's INV, `baddigit` (rule R80): a nibble above 9. -/
def badDigit (b : Byte) : Bool := decide (nibHi b > 9) || decide (nibLo b > 9)

/-- BIN2BCD's RNG (rule R82). -/
def rngBin (v : Nat) : Bool := decide (v > 99)

/-- HRDEC's RNG under Hour24 (rule R84). -/
def rngHour24 (hr : Nat) : Bool := decide (hr > 23)

/-- HRDEC's RNG under Hour12 (rule R84). -/
def rngHour12 (hr : Nat) : Bool := decide (hr = 0) || decide (hr > 12)

/-- HRDEC's INV: the units nibble of the masked byte is above 9 (rule R84). -/
def badUnits (m : Byte) : Bool := decide (nibLo m > 9)

/-- HRENC's RNG (rule R86). -/
def rngHour (h : Nat) : Bool := decide (h > 23)

/-- COORD's RNG (rule R95). -/
def rngFrac (frac : Nat) : Bool := decide (frac > fracMax)

/-- FIX3's RNG: the reserved bit 7 of byte 0 (rule R98). -/
def rngFix3 (b0 : Byte) : Bool := b0.getLsbD 7

end Sys2Proof.Machine
end

