-- ==== Sys2Proof/Syntax.lean ====
section
/-! DEFINITION. The ten operations of the block as syntax, one constructor per row of the opcode table (spec 30_encoding.md). -/

namespace Sys2Proof

/-- The source's HourMode (rule R10): the value of HMODE.M and SETMODE's operand. -/
inductive HourMode where
  | hour12
  | hour24
  deriving DecidableEq, Repr, Inhabited

/-- A decoded command frame (rules R42, R43). -/
inductive Instr where
  /-- BCD2BIN b (rule R80). -/
  | bcd2bin (b : Byte)
  /-- BIN2BCD v (rule R82). -/
  | bin2bcd (v : Byte)
  /-- HRDEC b (rule R84). -/
  | hrdec (b : Byte)
  /-- HRENC h (rule R86). -/
  | hrenc (h : Byte)
  /-- COORD d0..d5: degrees, minutes, three fraction bytes, direction (rule R95). -/
  | coord (d0 d1 d2 d3 d4 d5 : Byte)
  /-- FIX3 b0, b1, b2 (rule R98). -/
  | fix3 (b0 b1 b2 : Byte)
  /-- RDREG reg, len (rule R66). -/
  | rdreg (reg len : Byte)
  /-- WRREG reg, data; the frame's length byte is the number of data bytes (rules R50, R70). -/
  | wrreg (reg : Byte) (data : List Byte)
  /-- SETMODE m (rule R60). -/
  | setmode (m : HourMode)
  /-- GETST (rule R61). -/
  | getst
  deriving DecidableEq, Repr, Inhabited

end Sys2Proof
end

