-- ==== Sys2Proof/Machine/Operands.lean ====
section
/-! DEFINITION. The number formats of the operations: BCD, the hour byte, coordinates, the 3-byte layout (spec 42_bcd_hour.md, 43_fixedpoint.md). -/

namespace Sys2Proof.Machine

/-- `bcd2bin` of a byte (rule R80): natural arithmetic on the two nibbles. -/
def bcd2bin (b : Byte) : Nat := 10 * nibHi b + nibLo b

/-- `bin2bcd8` (42_bcd_hour.md preamble, rule R82). -/
def bin2bcd8 (v : Nat) : Nat := (16 * (v / 10) + v % 10) % 256

/-- What HRDEC computes from an hour byte (rule R84). -/
structure HourFields where
  hr : Nat
  h24 : Nat
  pm : Bool
  f24 : Bool
  inv : Bool
  rng : Bool
  deriving DecidableEq, Repr

/-- The decode under Hour24: mask 0x7F (rules R84, R85). -/
def decodeHour24 (b : Byte) : HourFields :=
  let m := b &&& 0x7F#8
  let hr := bcd2bin m
  { hr := hr, h24 := hr, pm := false, f24 := b.getLsbD 7, inv := badUnits m, rng := rngHour24 hr }

/-- The decode under Hour12: mask 0x1F, PM in bit 5 (rules R84, R85). -/
def decodeHour12 (b : Byte) : HourFields :=
  let m := b &&& 0x1F#8
  let hr := bcd2bin m
  let pm := b.getLsbD 5
  { hr := hr, h24 := hr % 12 + 12 * bitNat pm, pm := pm, f24 := b.getLsbD 7, inv := badUnits m, rng := rngHour12 hr }

/-- HRDEC's decode under the held mode, never under the byte's own bit 7 (rule R84 a). -/
def decodeHour (mode : HourMode) (b : Byte) : HourFields :=
  match mode with
  | .hour24 => decodeHour24 b
  | .hour12 => decodeHour12 b

/-- HRDEC's FL byte: bit 7 F24, bit 0 PM (rule R49). -/
def hourFlagByte (f24 pm : Bool) : Byte := byteOf (128 * bitNat f24 + bitNat pm)

/-- HRENC's hour byte under the held mode (rule R86). -/
def encodeHour (mode : HourMode) (h : Nat) : Nat :=
  match mode with
  | .hour24 => bin2bcd8 h ||| 0x80
  | .hour12 =>
    if h = 0 then 0x12
    else if h < 12 then bin2bcd8 h
    else if h = 12 then 0x12 ||| 0x20
    else bin2bcd8 (h - 12) ||| 0x20

/-- COORD's 24-bit fraction (rule R95), most significant byte first unless `fracMsbFirst` is turned (decision D11). -/
def fracOf (d2 d3 d4 : Byte) : Nat :=
  if fracMsbFirst then (d2.toNat <<< 16) ||| (d3.toNat <<< 8) ||| d4.toNat
  else (d4.toNat <<< 16) ||| (d3.toNat <<< 8) ||| d2.toNat

/-- COORD's PACKED (rule R95): `deg*100 + min + frac/100000`, times 100000. -/
def packedOf (deg min frac : Nat) : Nat := deg * (100 * packScale) + min * packScale + frac

/-- COORD's DDEG (rule R95): `deg + min/60 + frac/100000/60`, times 6000000. -/
def ddegOf (deg min frac : Nat) : Nat := deg * ddScale + min * (ddScale / 60) + frac

/-- FIX3's VAL (rule R98): the 15-bit integer part times 100 plus the hundredths; bit 7 of `b0` never counts. -/
def fix3Val (b0 b1 b2 : Byte) : Nat :=
  (((b0 &&& 0x7F#8).toNat <<< 8) ||| b1.toNat) * fix3Scale + b2.toNat

end Sys2Proof.Machine
end

