-- ==== Sys2Proof/Config.lean ====
section
/-! DEFINITION. The vocabulary of the downstream port (spec 20_memory.md) and the parameters the spec leaves open (rule R6). -/

namespace Sys2Proof

/-- An event of the downstream port as a trace lists it (00_scope.md section 5; rules R24, R25, R27). -/
inductive BusEvent where
  /-- `BusWrite(addr, data)`, `data[0]` first (rule R25). -/
  | write (addr : Byte) (data : List Byte)
  /-- `Settle`: the block waits T_SETTLE (rule R27). -/
  | settle
  /-- `BusRead(addr, n)` (rule R24). -/
  | read (addr : Byte) (n : Byte)
  deriving DecidableEq, Repr, Inhabited

/-- What the downstream agent answers to a transfer: a status, 0 for success and anything else for failure,
and, for a read, the bytes that arrived (rules R24, R25). -/
structure BusReply where
  st : Nat
  data : List Byte
  deriving DecidableEq, Repr, Inhabited

/-- One answer the downstream agent is known to give: a reply, or none ever (93_implementation_defined.md U20). -/
inductive BusAnswer where
  | reply (r : BusReply)
  | never
  deriving DecidableEq, Repr, Inhabited

/-- Free value (log entry 7): SELECT_REG, the select register's address, fixed and not given (rules R6, R23). -/
opaque Config.selectReg : Byte

/-- Free value (log entry 8): T_SETTLE in some unit of time, less one (rule R6 asks only that T_SETTLE is above zero). -/
opaque Config.settleLessOne : Nat

/-- T_SETTLE (rule R6): one fixed duration greater than zero. -/
def Config.tSettle : Nat := Config.settleLessOne + 1

/-- Free value (log entry 5): the downstream oracle's answer to an event, which may depend on every event before
it and every answer given before it (rule R24). -/
opaque Config.busReply : List BusEvent → List BusReply → BusEvent → BusReply

end Sys2Proof
end

