-- ==== Sys2Proof/Machine/State.lean ====
section
/-! DEFINITION. The state of the block (spec 10_state.md) and of the world it talks to, as plain data, and the state after reset. -/

namespace Sys2Proof.Machine

/-- HMODE, the held hour mode (rule R10): `v` is HMODE.V, set once a SETMODE has written `m` since the last reset;
`m` is HMODE.M. -/
structure HMode where
  v : Bool
  m : HourMode
  deriving DecidableEq, Repr

/-- PSEQ, the hidden step of the register-access unit (rule R16). -/
inductive Pseq where
  | idle
  | primeWr
  | primeSettle
  | read
  | write
  | writeSettle
  deriving DecidableEq, Repr

/-- The block's two asynchronous inputs, of one effect (rules R112, R120). -/
inductive Signal where
  | reset
  | cancel
  deriving DecidableEq, Repr

/-- What the host does next at the block's inputs (rules R2, R40, R112, R120). -/
inductive HostInput where
  /-- It hands over a command frame and, where `cut` is `some k`, asserts reset or CANCEL once the operation has issued
  `k` downstream events. -/
  | frame (F : List Byte) (cut : Option Nat)
  /-- It asserts reset or CANCEL while no register operation is in progress, or while one waits for ever. -/
  | signal (k : Signal)
  deriving DecidableEq, Repr

/-- The host side (rule R2 a; log entries 2 and 3). -/
structure HostPort where
  /-- What the host does, oldest first. -/
  inputs : List HostInput
  /-- The cut of the operation last accepted: `some k` where a reset or CANCEL lands inside it once `k` more of its
  downstream events are issued (rules R16, R112). Each frame brings its own. -/
  cut : Option Nat
  /-- The response frames returned so far, oldest first (rule R41). -/
  received : List (List Byte)
  deriving DecidableEq, Repr

/-- The downstream agent (rules R2 c, R17, R24; log entry 5). -/
structure Downstream where
  /-- The answers it is known to give next, oldest first; where there is none the answer is a free value. -/
  answers : List BusAnswer
  /-- Every event it has seen, in one total order (rule R36); no reset clears it (rule R121). -/
  log : List BusEvent
  /-- Every answer it has given, oldest first. -/
  replies : List BusReply
  deriving DecidableEq, Repr


/-- The machine: the block's own state (10_state.md section 1), the trace of the operation, and its two neighbours. -/
structure State where
  /-- HMODE (rule R10). -/
  hmode : HMode
  /-- FLAGS (rule R11): bit 0 INV, bit 1 RNG, bits 7:2 hard-wired 0 (read through `State.readFlags`). -/
  flags : BitVec 8
  /-- PSEQ (rule R16). -/
  pseq : Pseq
  /-- The downstream events since the frame was accepted (00_scope.md section 5); empty after reset (rule R19). -/
  trace : List BusEvent
  /-- The host. -/
  host : HostPort
  /-- The downstream transport and device. -/
  downstream : Downstream
  deriving DecidableEq, Repr

/-- Why the machine stops. -/
inductive Fault where
  /-- Raised by `step` alone: a BusWrite or BusRead never returned and neither reset nor CANCEL is coming, so the
  block waits for ever (rule R131, 93_implementation_defined.md U20: stuck). Safe: nothing is claimed past it. -/
  | transferNeverReturns
  deriving DecidableEq, Repr

/-- Why an instruction has no meaning. -/
inductive Refusal where
  /-- Raised by an arm of `exec` that has no meaning; no arm does. Safe. -/
  | notModelled (mnemonic : String)
  deriving DecidableEq, Repr

/-- HMODE after reset (rule R19): V = 0; M is unspecified and unobservable there, named Hour12 (log entry 4). -/
def HMode.reset : HMode := ⟨false, .hour12⟩

/-- The machine right after power-up reset (rules R19, R120, R122), nothing yet asked of it. -/
def State.reset : State where
  hmode := HMode.reset
  flags := 0x00#8
  pseq := .idle
  trace := []
  host := ⟨[], none, []⟩
  downstream := ⟨[], [], []⟩

end Sys2Proof.Machine
end

