-- ==== Sys2Proof/Machine/Ops.lean ====
section
/-! DEFINITION. The named operations over the state: responses, reset, the downstream port, accepting a frame (spec 20, 60, 70). -/

namespace Sys2Proof.Machine

/-- Ends an operation: one response frame is returned and the block is ready for the next frame (rules R41, R105). -/
def State.respond (resp : List Byte) (s : State) : State :=
  { s with pseq := .idle, host := { s.host with received := s.host.received ++ [resp] } }

/-- `raise <Status>` (rule R105): the response is the status alone; HMODE and FLAGS stay (rule R13). -/
def State.raise (status : Byte) (s : State) : State := s.respond [status]

/-- FLAGS <- {000000, RNG, INV} (rule R12). -/
def State.writeFlags (rng inv : Bool) (s : State) : State := { s with flags := packFlags rng inv }

/-- FLAGS as read: bits 7:2 read as 0 (rules R11, R61). -/
def State.readFlags (s : State) : Byte := s.flags &&& flagsMask

/-- HMODE <- (V = 1, M = m), SETMODE's write of both fields (rule R60). -/
def State.writeHmode (m : HourMode) (s : State) : State := { s with hmode := ⟨true, m⟩ }

/-- Ends a codec operation: FLAGS is overwritten and the response opens with ST_OK (rules R12, R49). -/
def State.finishCodec (rng inv : Bool) (result : List Byte) (s : State) : State :=
  (s.writeFlags rng inv).respond (stOk :: result)

/-- Reset or CANCEL (rules R112, R120): every piece of block state takes its reset value, any operation in progress
is abandoned with no response, and the device is left alone (rule R121). -/
def State.resetBlock (s : State) : State :=
  { s with hmode := HMode.reset, flags := 0x00#8, pseq := .idle, trace := [] }

/-- The reset or CANCEL that lands inside a register operation has come: it is used up and resets the block (rule R112). -/
def State.cancelled (s : State) : State :=
  { s with host := { s.host with cut := none } }.resetBlock

/-- The bounds the spec sets on an answer: at most `n` bytes from BusRead(addr, n), none from a write (rules R24, R25). -/
def BusReply.heldTo (e : BusEvent) (r : BusReply) : BusReply :=
  match e with
  | .read _ n => { r with data := r.data.take n.toNat }
  | .write _ _ => { r with data := [] }
  | .settle => { r with data := [] }

/-- The downstream agent answers event `e`: its next known answer, or a free value where none is known (rule R24);
`none` where it never answers. -/
def Downstream.answer (e : BusEvent) (d : Downstream) : Option BusReply × Downstream :=
  match d.answers with
  | [] =>
    let r := BusReply.heldTo e (Config.busReply d.log d.replies e)
    (some r, { d with replies := d.replies ++ [r] })
  | .reply r :: rest =>
    let r := BusReply.heldTo e r
    (some r, { d with answers := rest, replies := d.replies ++ [r] })
  | .never :: rest => (none, { d with answers := rest })

/-- The downstream agent sees event `e`, after every earlier one (rule R36). -/
def Downstream.sees (e : BusEvent) (d : Downstream) : Downstream := { d with log := d.log ++ [e] }

/-- Issues a downstream event at sequencer step `q`: the trace and the agent's log both get it, and a pending cut is
one event nearer (rules R16, R36). -/
def State.issue (q : Pseq) (e : BusEvent) (s : State) : State :=
  { s with
    pseq := q
    trace := s.trace ++ [e]
    host := { s.host with cut := s.host.cut.map (· - 1) }
    downstream := s.downstream.sees e }

/-- How a phase of a register operation ends: it goes on with a value, or the operation is over with no response
(cut by reset or CANCEL, or waiting for ever). -/
inductive Phase (α : Type) where
  | go (a : α) (s : State)
  | over (s : State)

/-- What follows a phase. -/
def Phase.finish {α : Type} (p : Phase α) (k : α → State → State) : State :=
  match p with
  | .go a s => k a s
  | .over s => s

/-- A cut point of a register operation (rules R16, R112): if the pending reset or CANCEL is due here the operation
ends, else it goes on. -/
def State.cutPoint (s : State) : Phase Unit :=
  if s.host.cut = some 0 then .over s.cancelled else .go () s

/-- BusRead or BusWrite (rules R24, R25): the event is issued, the cut may land, and the operation waits for the
answer. With no answer it waits in step `q` (93_implementation_defined.md U20). -/
def State.transfer (q : Pseq) (e : BusEvent) (s : State) : Phase BusReply :=
  match (s.issue q e).cutPoint with
  | .over t => .over t
  | .go _ t =>
    match t.downstream.answer e with
    | (some r, d) => .go r { t with downstream := d }
    | (none, d) => .over { t with downstream := d }

/-- Settle (rule R27): an event with no data and no answer; the cut may land after it. -/
def State.settle (q : Pseq) (s : State) : Phase Unit := (s.issue q .settle).cutPoint

/-- Whether a read that starts at `reg` is primed (rule R22); the length is known not to be zero. -/
def primedRange (reg : Byte) : Bool := decide (primeLo ≤ reg.toNat) && decide (reg.toNat ≤ primeHi)

/-- The response to an illegal frame (rules R46, R107): `[ST_ILLEGAL]`, no event, no state change. -/
def State.illegalFrame (s : State) : State := s.raise stIllegal

/-- The first reset or CANCEL the host asserts, taken out of what it does; none if there is none. -/
def takeSignal : List HostInput → Option (List HostInput)
  | [] => none
  | .signal _ :: rest => some rest
  | .frame F cut :: rest => (takeSignal rest).map (.frame F cut :: ·)

/-- What the block meets at its inputs. -/
inductive Fetch where
  /-- Nothing: the block waits for a frame (rule R120). -/
  | waits
  /-- A reset or CANCEL. -/
  | signalled (s : State)
  /-- A command frame, accepted: the operation starts with an empty trace. -/
  | frame (F : List Byte) (s : State)
  /-- A transfer that never returns, and nothing that would end it (rule R131, U20). -/
  | stuck

/-- The host's inputs replaced by what is left of them. -/
def State.withInputs (inputs : List HostInput) (s : State) : State :=
  { s with host := { s.host with inputs := inputs } }

/-- Accepts a frame: it leaves the host's inputs, the operation's trace is empty (rules R3, R122), and the cut the host
holds for this operation, if any, is pending (rule R112). -/
def State.accept (cut : Option Nat) (rest : List HostInput) (s : State) : State :=
  { s with trace := [], host := { s.host with inputs := rest, cut := cut } }

/-- What the block takes next. While PSEQ is IDLE it takes the host's next input; while an operation waits on a
transfer it accepts no frame (rule R3), and only a reset or CANCEL reaches it (rule R112). -/
def State.fetch (s : State) : Fetch :=
  if s.pseq = .idle then
    match s.host.inputs with
    | [] => .waits
    | .signal _ :: rest => .signalled (s.withInputs rest)
    | .frame F cut :: rest => .frame F (s.accept cut rest)
  else
    match takeSignal s.host.inputs with
    | some rest => .signalled (s.withInputs rest)
    | none => .stuck

end Sys2Proof.Machine
end

