-- ==== Sys2Proof/Machine/Bcd.lean ====
section
/-! DEFINITION. The BCD unit: BCD2BIN, BIN2BCD, HRDEC, HRENC (spec 42_bcd_hour.md). -/

namespace Sys2Proof.Machine

/-- BCD2BIN (rule R80): `[ST_OK, 10*hi + lo]`, INV on a digit above 9, RNG 0. -/
def execBcd2bin (b : Byte) (s : State) : Host.Outcome State Fault Refusal :=
  .next (s.finishCodec false (badDigit b) [byteOf (bcd2bin b)])

/-- BIN2BCD (rule R82): `[ST_OK, e]`, RNG above 99, INV 0. -/
def execBin2bcd (v : Byte) (s : State) : Host.Outcome State Fault Refusal :=
  .next (s.finishCodec (rngBin v.toNat) false [byteOf (bin2bcd8 v.toNat)])

/-- HRDEC (rule R84): ST_NOMODE while HMODE.V = 0 (rule R109), else `[ST_OK, HR, H24, FL]`. -/
def execHrdec (b : Byte) (s : State) : Host.Outcome State Fault Refusal :=
  if s.hmode.v then
    let f := decodeHour s.hmode.m b
    .next (s.finishCodec f.rng f.inv [byteOf f.hr, byteOf f.h24, hourFlagByte f.f24 f.pm])
  else .next (s.raise stNomode)

/-- HRENC (rule R86): ST_NOMODE while HMODE.V = 0 (rule R109), else `[ST_OK, e]`. -/
def execHrenc (h : Byte) (s : State) : Host.Outcome State Fault Refusal :=
  if s.hmode.v then
    .next (s.finishCodec (rngHour h.toNat) false [byteOf (encodeHour s.hmode.m h.toNat)])
  else .next (s.raise stNomode)

end Sys2Proof.Machine
end

