-- ==== Sys2Proof/Machine/FixedPoint.lean ====
section
/-! DEFINITION. The fixed-point unit: COORD, FIX3 (spec 43_fixedpoint.md). -/

namespace Sys2Proof.Machine

/-- COORD (rule R95): `[ST_OK] ++ be_4(PACKED) ++ be_4(DDEG) ++ [dir]`, RNG on a fraction above 99999. -/
def execCoord (d0 d1 d2 d3 d4 d5 : Byte) (s : State) : Host.Outcome State Fault Refusal :=
  let frac := fracOf d2 d3 d4
  .next (s.finishCodec (rngFrac frac) false
    (be 4 (packedOf d0.toNat d1.toNat frac) ++ be 4 (ddegOf d0.toNat d1.toNat frac) ++ [d5]))

/-- FIX3 (rule R98): `[ST_OK] ++ be_3(VAL)`, RNG the reserved bit. -/
def execFix3 (b0 b1 b2 : Byte) (s : State) : Host.Outcome State Fault Refusal :=
  .next (s.finishCodec (rngFix3 b0) false (be 3 (fix3Val b0 b1 b2)))

end Sys2Proof.Machine
end

