-- ==== Sys2Proof/WellFormed.lean ====
section
/-! DEFINITION. Which instructions a frame can express (spec rules R40, R44). -/

namespace Sys2Proof

/-- Every operand byte is free; a WRREG carries at most 255 data bytes, because its length travels in one byte
(rules R5, R42). A zero length is well formed (rule R46). -/
def Instr.wellFormed : Instr → Bool
  | .bcd2bin _ => true
  | .bin2bcd _ => true
  | .hrdec _ => true
  | .hrenc _ => true
  | .coord _ _ _ _ _ _ => true
  | .fix3 _ _ _ => true
  | .rdreg _ _ => true
  | .wrreg _ data => decide (data.length ≤ 255)
  | .setmode _ => true
  | .getst => true

end Sys2Proof
end

