-- ==== Sys2Proof/Decode.lean ====
section
/-! DEFINITION. Command frames to instructions and back (spec 30_encoding.md, rules R40 to R47). -/

namespace Sys2Proof

/-- The ten operations by name, the rows of rule R43's table. -/
inductive Op where
  | bcd2bin | bin2bcd | hrdec | hrenc | coord | fix3 | rdreg | wrreg | setmode | getst
  deriving DecidableEq, Repr

/-- Why a frame is illegal (rule R46): (a) to (d) in order. -/
inductive DecodeError where
  | emptyFrame
  | undefinedOpcode (b : Byte)
  | wrongLength (op : Op)
  | badModeOperand (m : Byte)
  deriving DecidableEq, Repr

/-- The opcode byte of an operation (rule R43). -/
def opcode : Op → Byte
  | .bcd2bin => 0x01#8
  | .bin2bcd => 0x02#8
  | .hrdec => 0x03#8
  | .hrenc => 0x04#8
  | .coord => 0x10#8
  | .fix3 => 0x11#8
  | .rdreg => 0x20#8
  | .wrreg => 0x21#8
  | .setmode => 0x30#8
  | .getst => 0x31#8

/-- The ten operations in the order of rule R43's table. -/
def allOps : List Op :=
  [.bcd2bin, .bin2bcd, .hrdec, .hrenc, .coord, .fix3, .rdreg, .wrreg, .setmode, .getst]

/-- The operation an opcode byte selects, by the whole byte; none for the 246 others (rules R43, R46). -/
def opOf (b : Byte) : Option Op := allOps.find? fun op => opcode op == b

/-- SETMODE's operand byte for a mode (rule R45). -/
def modeByte : HourMode → Byte
  | .hour12 => 0x00#8
  | .hour24 => 0x01#8

/-- The frame length rule R44 gives from a frame's first bytes; none where the opcode is undefined or missing, or
a WRREG frame is too short to hold its length byte. -/
def expectedLength : List Byte → Option Nat
  | [] => none
  | b :: rest =>
    match opOf b with
    | none => none
    | some .bcd2bin => some 2
    | some .bin2bcd => some 2
    | some .hrdec => some 2
    | some .hrenc => some 2
    | some .coord => some 7
    | some .fix3 => some 4
    | some .rdreg => some 3
    | some .wrreg =>
      match rest with
      | _ :: len :: _ => some (3 + len.toNat)
      | _ => none
    | some .setmode => some 2
    | some .getst => some 1

/-- SETMODE's operand: 0 Hour12, 1 Hour24, anything else illegal (rules R45, R46 d). -/
def decodeMode (m : Byte) : Except DecodeError Instr :=
  if m = 0x00#8 then .ok (.setmode .hour12)
  else if m = 0x01#8 then .ok (.setmode .hour24)
  else .error (.badModeOperand m)

/-- The operand bytes of an operation (rules R42, R45), refused where their number is not the format's (R46 c). -/
def decodeOperands (op : Op) (rest : List Byte) : Except DecodeError Instr :=
  match op with
  | .bcd2bin => match rest with
    | [b] => .ok (.bcd2bin b)
    | _ => .error (.wrongLength .bcd2bin)
  | .bin2bcd => match rest with
    | [v] => .ok (.bin2bcd v)
    | _ => .error (.wrongLength .bin2bcd)
  | .hrdec => match rest with
    | [b] => .ok (.hrdec b)
    | _ => .error (.wrongLength .hrdec)
  | .hrenc => match rest with
    | [h] => .ok (.hrenc h)
    | _ => .error (.wrongLength .hrenc)
  | .coord => match rest with
    | [d0, d1, d2, d3, d4, d5] => .ok (.coord d0 d1 d2 d3 d4 d5)
    | _ => .error (.wrongLength .coord)
  | .fix3 => match rest with
    | [b0, b1, b2] => .ok (.fix3 b0 b1 b2)
    | _ => .error (.wrongLength .fix3)
  | .rdreg => match rest with
    | [reg, len] => .ok (.rdreg reg len)
    | _ => .error (.wrongLength .rdreg)
  | .wrreg => match rest with
    | reg :: len :: data =>
      if data.length = len.toNat then .ok (.wrreg reg data) else .error (.wrongLength .wrreg)
    | _ => .error (.wrongLength .wrreg)
  | .setmode => match rest with
    | [m] => decodeMode m
    | _ => .error (.wrongLength .setmode)
  | .getst => match rest with
    | [] => .ok .getst
    | _ => .error (.wrongLength .getst)

/-- The decoder: total on byte lists, independent of state (rule R47). -/
def decode : List Byte → Except DecodeError Instr
  | [] => .error .emptyFrame
  | b :: rest =>
    match opOf b with
    | none => .error (.undefinedOpcode b)
    | some op => decodeOperands op rest

/-- The command frame of an instruction (rules R42, R43, R50). -/
def encode : Instr → List Byte
  | .bcd2bin b => [opcode .bcd2bin, b]
  | .bin2bcd v => [opcode .bin2bcd, v]
  | .hrdec b => [opcode .hrdec, b]
  | .hrenc h => [opcode .hrenc, h]
  | .coord d0 d1 d2 d3 d4 d5 => [opcode .coord, d0, d1, d2, d3, d4, d5]
  | .fix3 b0 b1 b2 => [opcode .fix3, b0, b1, b2]
  | .rdreg reg len => [opcode .rdreg, reg, len]
  | .wrreg reg data => opcode .wrreg :: reg :: Machine.byteOf data.length :: data
  | .setmode m => [opcode .setmode, modeByte m]
  | .getst => [opcode .getst]

/-- The frame whose bits the opcode table numbers as `w`: F[0] is the most significant of the `nbits` bits (rule R42,
log entry 14), and operand bytes the table gives no bits are zero. -/
def tableFrame (nbits w : Nat) : List Byte :=
  let head := Machine.be ((nbits + 7) / 8) w
  let full := head ++ List.replicate (3 - head.length) 0x00#8
  head ++ List.replicate ((expectedLength full).getD 0 - head.length) 0x00#8

/-- What the decoder reads from an instruction numbered as the opcode table numbers its bits. -/
def decodeTableWord (nbits w : Nat) : Option Instr := (decode (tableFrame nbits w)).toOption

end Sys2Proof
end

