-- ==== Sys2Proof/Machine/ModeStatus.lean ====
section
/-! DEFINITION. The mode-and-status unit: SETMODE, GETST (spec 40_mode_status.md). -/

namespace Sys2Proof.Machine

/-- GETST's MODE byte (rule R61). -/
def modeStatusByte (h : HMode) : Byte := if h.v then modeByte h.m else modeUnset

/-- SETMODE (rule R60): both fields of HMODE written, FLAGS kept, `[ST_OK]`. -/
def execSetmode (m : HourMode) (s : State) : Host.Outcome State Fault Refusal :=
  .next ((s.writeHmode m).respond [stOk])

/-- GETST (rule R61): `[ST_OK, FLAGS, MODE]`, nothing else changed. -/
def execGetst (s : State) : Host.Outcome State Fault Refusal :=
  .next (s.respond [stOk, s.readFlags, modeStatusByte s.hmode])

end Sys2Proof.Machine
end

