-- ==== Sys2Proof/Machine/RegAccess.lean ====
section
/-! DEFINITION. The register-access unit: RDREG with the priming write, WRREG (spec 41_regaccess.md). -/

namespace Sys2Proof.Machine

/-- RDREG's step 3 (rule R66): the one BusRead, from `reg` itself, and the response its answer gives. -/
def State.readRegisters (reg len : Byte) (s : State) : State :=
  (s.transfer .read (.read reg len)).finish fun r t =>
    if r.st ≠ 0 then t.raise stFail
    else if r.data.length < len.toNat then t.raise stShort
    else t.respond (stOk :: r.data)

/-- RDREG's step 2 (rule R66): the priming write of `[reg, len]` to SELECT_REG, Settle, then the read. -/
def State.readPrimed (reg len : Byte) (s : State) : State :=
  (s.transfer .primeWr (.write Config.selectReg [reg, len])).finish fun r t =>
    if r.st ≠ 0 then t.raise stFail
    else (t.settle .primeSettle).finish fun _ u => u.readRegisters reg len

/-- WRREG's transfer (rule R70): one BusWrite of the whole payload, never primed, then Settle. -/
def State.writeRegisters (reg : Byte) (data : List Byte) (s : State) : State :=
  (s.transfer .write (.write reg data)).finish fun r t =>
    if r.st ≠ 0 then t.raise stFail
    else (t.settle .writeSettle).finish fun _ u => u.respond [stOk]

/-- RDREG (rule R66). -/
def execRdreg (reg len : Byte) (s : State) : Host.Outcome State Fault Refusal :=
  .next (s.cutPoint.finish fun _ t =>
    if len.toNat = 0 then t.raise stFail
    else if primedRange reg then t.readPrimed reg len
    else t.readRegisters reg len)

/-- WRREG (rule R70). -/
def execWrreg (reg : Byte) (data : List Byte) (s : State) : Host.Outcome State Fault Refusal :=
  .next (s.cutPoint.finish fun _ t =>
    if data.length = 0 then t.raise stFail
    else t.writeRegisters reg data)

end Sys2Proof.Machine
end

