-- ==== Sys2Proof/Machine/Dispatch.lean ====
section
/-! DEFINITION. One arm per instruction of the block. -/

namespace Sys2Proof.Machine

/-- The meaning of each operation of rule R43. -/
def exec (i : Instr) (s : State) : Host.Outcome State Fault Refusal :=
  match i with
  | .bcd2bin b => Sys2Proof.Machine.execBcd2bin b s
  | .bin2bcd v => Sys2Proof.Machine.execBin2bcd v s
  | .hrdec b => Sys2Proof.Machine.execHrdec b s
  | .hrenc h => Sys2Proof.Machine.execHrenc h s
  | .coord d0 d1 d2 d3 d4 d5 => Sys2Proof.Machine.execCoord d0 d1 d2 d3 d4 d5 s
  | .fix3 b0 b1 b2 => Sys2Proof.Machine.execFix3 b0 b1 b2 s
  | .rdreg reg len => Sys2Proof.Machine.execRdreg reg len s
  | .wrreg reg data => Sys2Proof.Machine.execWrreg reg data s
  | .setmode m => Sys2Proof.Machine.execSetmode m s
  | .getst => Sys2Proof.Machine.execGetst s

end Sys2Proof.Machine
end

