-- ==== Sys2Proof/Machine/Step.lean ====
section
/-! DEFINITION. One step of the machine: the block meets its inputs once. -/

namespace Sys2Proof.Machine

/-- One step: wait, take a reset or CANCEL, answer an illegal frame, or run one operation to its end (rules R3, R16,
R36, R46, R120; log entries 1 and 6). -/
def step (s : State) : Host.Outcome State Fault Refusal :=
  match s.fetch with
  | .waits => .next s
  | .signalled t => .next t.resetBlock
  | .stuck => .fault .transferNeverReturns
  | .frame F t =>
    match decode F with
    | .error _ => .next t.illegalFrame
    | .ok i => exec i t

/-- `s` with the frame the opcode table numbers as `w` standing first at the host's side and the block ready to take
it: the host hands over a program, frame by frame (log entry 2). -/
def State.withFetchWord (s : State) (nbits w : Nat) : State :=
  { s with pseq := .idle, host := { s.host with inputs := .frame (tableFrame nbits w) none :: s.host.inputs } }

end Sys2Proof.Machine
end

