-- ==== Sys2Proof/Safety.lean ====
section
/-! DEFINITION. The terms the statements are made in: the conditions on a run, and the invariants of the machine. -/

namespace Sys2Proof.Safety

open Sys2Proof.Machine

/-! ### Conditions on a state -/

/-- No reset or CANCEL lands inside a register operation within its first `n` downstream events (rule R112). -/
def noCutWithin (n : Nat) (s : State) : Bool :=
  match s.host.cut with
  | none => true
  | some k => decide (n < k)

/-- Every known answer is one that comes: the premise on the downstream agent that every transfer returns (rule R131). -/
def transfersReturn (s : State) : Bool := decide (BusAnswer.never ∉ s.downstream.answers)

/-! ### Next states written from a state -/

/-- `s` with nothing changed but that the response `resp` has been returned and the block is ready (rule R105). -/
def answered (s : State) (resp : List Byte) : State :=
  { s with pseq := .idle, host := { s.host with received := s.host.received ++ [resp] } }

/-- `s` after the operation issued the events `evs`, the agent then being `d` (rules R16, R36). -/
def afterEvents (s : State) (evs : List BusEvent) (d : Downstream) : State :=
  { s with trace := s.trace ++ evs, downstream := d, host := { s.host with cut := s.host.cut.map (· - evs.length) } }

/-- A step from `s` to `t` returned exactly the response `resp`. -/
def Returned (s t : State) (resp : List Byte) : Prop := t.host.received = s.host.received ++ [resp]

/-- An operation begun in `s` waits in `t`, at step `q` of the sequencer, for a transfer that never returns, having issued
`evs` and returned nothing (93_implementation_defined.md U20). -/
def Waits (s t : State) (q : Pseq) (evs : List BusEvent) : Prop :=
  t.pseq = q ∧ t.downstream.log = s.downstream.log ++ evs ∧ t.trace = s.trace ++ evs ∧
  t.host.received = s.host.received ∧ t.host.inputs = s.host.inputs ∧ t.hmode = s.hmode ∧ t.flags = s.flags

/-- The block is in its reset state (rules R19, R120); HMODE.M is left unsaid, as the spec leaves it. -/
def BlockReset (t : State) : Prop :=
  t.hmode.v = false ∧ t.flags = 0x00#8 ∧ t.pseq = .idle ∧ t.trace = []

/-- Whether an instruction is a codec operation (rule R12). -/
def isCodec : Instr → Bool
  | .bcd2bin _ => true
  | .bin2bcd _ => true
  | .hrdec _ => true
  | .hrenc _ => true
  | .coord _ _ _ _ _ _ => true
  | .fix3 _ _ _ => true
  | .rdreg _ _ => false
  | .wrreg _ _ => false
  | .setmode _ => false
  | .getst => false

/-- Whether an instruction is a register operation (rule R65). -/
def isRegAccess : Instr → Bool
  | .bcd2bin _ => false
  | .bin2bcd _ => false
  | .hrdec _ => false
  | .hrenc _ => false
  | .coord _ _ _ _ _ _ => false
  | .fix3 _ _ _ => false
  | .rdreg _ _ => true
  | .wrreg _ _ => true
  | .setmode _ => false
  | .getst => false

/-- `s` once the frame at the head of the host's inputs has been accepted with its cut, `others` being left (rules R3,
R112, R122). -/
def taken (s : State) (cut : Option Nat) (others : List HostInput) : State :=
  { s with trace := [], host := { s.host with inputs := others, cut := cut } }

/-- Frames the host hands over, each with its cut, and no reset or CANCEL between them. -/
def framesOnly (Fs : List (List Byte × Option Nat)) : List HostInput := Fs.map fun x => .frame x.1 x.2

/-- The events a register operation issues where every transfer succeeds: the longest of its traces (rules R69, R71). -/
def wholeTrace : Instr → List BusEvent
  | .bcd2bin _ => []
  | .bin2bcd _ => []
  | .hrdec _ => []
  | .hrenc _ => []
  | .coord _ _ _ _ _ _ => []
  | .fix3 _ _ _ => []
  | .rdreg reg len =>
    if len.toNat = 0 then []
    else if 0x30 ≤ reg.toNat ∧ reg.toNat ≤ 0x79 then
      [.write Config.selectReg [reg, len], .settle, .read reg len]
    else [.read reg len]
  | .wrreg reg data => if data.length = 0 then [] else [.write reg data, .settle]
  | .setmode _ => []
  | .getst => []

/-- Every frame with this opcode and a number of operand bytes other than `n` is answered `[ST_ILLEGAL]` and does
nothing (rules R44, R46 c). -/
def OtherLengthsIllegal (op : Byte) (n : Nat) : Prop :=
  ∀ (s : State) (rest : List Byte) (cut : Option Nat) (others : List HostInput), rest.length ≠ n → s.pseq = .idle →
    s.host.inputs = .frame (op :: rest) cut :: others → step s = .next (answered (taken s cut others) [0x02#8])

/-- The illegal frames, as rule R46 (a) to (d) lists them, the lengths being rule R44's. -/
def IllegalFrame (F : List Byte) : Prop :=
  F.length = 0 ∨
  (∃ b rest, F = b :: rest ∧ b.toNat ∉ [0x01, 0x02, 0x03, 0x04, 0x10, 0x11, 0x20, 0x21, 0x30, 0x31]) ∨
  (∃ b rest, F = b :: rest ∧ b.toNat = 0x31 ∧ F.length ≠ 1) ∨
  (∃ b rest, F = b :: rest ∧ b.toNat ∈ [0x01, 0x02, 0x03, 0x04, 0x30] ∧ F.length ≠ 2) ∨
  (∃ b rest, F = b :: rest ∧ b.toNat = 0x11 ∧ F.length ≠ 4) ∨
  (∃ b rest, F = b :: rest ∧ b.toNat = 0x10 ∧ F.length ≠ 7) ∨
  (∃ b rest, F = b :: rest ∧ b.toNat = 0x20 ∧ F.length ≠ 3) ∨
  (∃ b rest, F = b :: rest ∧ b.toNat = 0x21 ∧ F.length < 3) ∨
  (∃ b reg len data, F = b :: reg :: len :: data ∧ b.toNat = 0x21 ∧ F.length ≠ 3 + len.toNat) ∨
  (∃ b m, F = [b, m] ∧ b.toNat = 0x30 ∧ m.toNat > 1)

/-! ### Invariants -/

/-- A response frame as rules R41 and R105 allow it: 1 to 256 bytes, a status of at most 4, result bytes after ST_OK only. -/
def LegalResponse (r : List Byte) : Prop :=
  ∃ st rest, r = st :: rest ∧ st.toNat ≤ 4 ∧ (st ≠ 0x00#8 → rest = []) ∧ r.length ≤ 256

/-- An event as rules R24 and R25 allow the block to issue it. -/
def LegalEvent : BusEvent → Prop
  | .write _ data => 1 ≤ data.length ∧ data.length ≤ 255
  | .settle => True
  | .read _ n => 1 ≤ n.toNat

/-- Every read that starts in the primed range directly follows its own priming write and the settle (rules R22, R67, R127). -/
def PrimedReads (log : List BusEvent) : Prop :=
  ∀ pre a n post, log = pre ++ .read a n :: post → 0x30 ≤ a.toNat → a.toNat ≤ 0x79 →
    ∃ before, pre = before ++ [.write Config.selectReg [a, n], .settle]

/-- Every settle directly follows a write (rule R27). -/
def SettlesFollowWrites (log : List BusEvent) : Prop :=
  ∀ pre post, log = pre ++ .settle :: post → ∃ before a data, pre = before ++ [.write a data]

/-- The discipline of the downstream port. -/
structure PortOk (s : State) : Prop where
  legal : ∀ e ∈ s.downstream.log, LegalEvent e
  primed : PrimedReads s.downstream.log
  settles : SettlesFollowWrites s.downstream.log
  /-- The operation's trace is the end of what the agent has seen (rule R36). -/
  traceIsTail : ∃ earlier, s.downstream.log = earlier ++ s.trace

/-- The discipline of the host's side and of the block's registers. -/
structure HostOk (s : State) : Prop where
  /-- FLAGS[7:2] are 0 (rule R11). -/
  reserved : s.flags &&& 0xFC#8 = 0x00#8
  /-- Every response returned is a legal one. -/
  responses : ∀ r ∈ s.host.received, LegalResponse r
  /-- Between steps PSEQ is IDLE, or waits on a transfer that never returns (rule R16, U20). -/
  sequencer : s.pseq = .idle ∨ s.pseq = .primeWr ∨ s.pseq = .read ∨ s.pseq = .write

/-! ### What the host can tell apart -/

/-- Two states that differ at most in HMODE.M while HMODE.V = 0 (rule R19). -/
def SameButUnsetMode (s t : State) : Prop :=
  s.hmode.v = false ∧ t = { s with hmode := { s.hmode with m := t.hmode.m } }

/-- Two outcomes of one kind whose states are equal or differ only in an unset HMODE.M. -/
def SameOutcome : Host.Outcome State Fault Refusal → Host.Outcome State Fault Refusal → Prop
  | .next s, .next t => s = t ∨ SameButUnsetMode s t
  | .fault a, .fault b => a = b
  | .refused a, .refused b => a = b
  | _, _ => False

/-! ### Premises about the world outside -/

/-- Who put an event on the device's bus. -/
inductive Master where
  | block
  | other
  deriving DecidableEq, Repr

/-- The premise of exclusive ownership (rule R39): nothing but the block accesses the device. -/
def ExclusiveOwnership (bus : List (Master × BusEvent)) : Prop := ∀ x ∈ bus, x.1 = .block

/-- The block's own events on the bus, in order. -/
def blockEvents (bus : List (Master × BusEvent)) : List BusEvent :=
  bus.filterMap fun x => if x.1 = .block then some x.2 else none

/-- What happens at the device, in order: an event of the block, its Settle being a pause the block keeps, or a pause
the transport keeps (rule R126). -/
inductive LineEvent where
  | ofBlock (e : BusEvent)
  | transportPause
  deriving DecidableEq, Repr

/-- The block's own events on the line, in order. -/
def blockPart (line : List LineEvent) : List BusEvent :=
  line.filterMap fun x => match x with
    | .ofBlock e => some e
    | .transportPause => none

/-- Whether nothing is transferred: the settle delay is kept, by the block or by the transport. -/
def isPause : LineEvent → Bool
  | .ofBlock (.write _ _) => false
  | .ofBlock .settle => true
  | .ofBlock (.read _ _) => false
  | .transportPause => true

/-- The premise that the transport honours the post-read settle (rule R126, log entry 27): it pauses after every read
before anything else reaches the device. -/
def PostReadSettle (line : List LineEvent) : Prop :=
  ∀ pre a n post, line = pre ++ .ofBlock (.read a n) :: post → ∃ rest, post = .transportPause :: rest

/-- Every transfer on the line is directly followed by a pause, so that the next one meets a settled device (rule R126). -/
def SettledThroughout (line : List LineEvent) : Prop :=
  ∀ pre x post, line = pre ++ x :: post → isPause x = false → ∃ p rest, post = p :: rest ∧ isPause p = true

/-- An operation's trace whose last event is a BusWrite: no Settle follows it, since Settle is owed to a successful write
alone (rule R27). -/
def EndsInWrite (trace : List BusEvent) : Prop := ∃ earlier a data, trace = earlier ++ [.write a data]

/-- The least time the block has spent in Settle, in T_SETTLE's unit (rules R6, R27). -/
def leastSettleTime (log : List BusEvent) : Nat := log.count .settle * Config.tSettle

end Sys2Proof.Safety
end

