-- ==== Sys2Proof/Certificates/Slice0/Obligations.lean ====
section
/-! DEFINITION. The statements for the provers, made from the spec's numbered rules. -/

open Sys2Proof Sys2Proof.Machine Sys2Proof.Safety

/-! ### Frames -/

/-- Frames written out from rule R43's table and rule R50 decode to the operations they stand for. -/
def Obligations.FrameWordsDecode : Prop :=
  decode [0x01#8, 0x59#8] = .ok (.bcd2bin 0x59#8) ∧
  decode [0x03#8, 0xA3#8] = .ok (.hrdec 0xA3#8) ∧
  decode [0x10#8, 0x25#8, 0x2E#8, 0x00#8, 0x30#8, 0x39#8, 0x4E#8]
    = .ok (.coord 0x25#8 0x2E#8 0x00#8 0x30#8 0x39#8 0x4E#8) ∧
  decode [0x20#8, 0x30#8, 0x07#8] = .ok (.rdreg 0x30#8 0x07#8) ∧
  decode [0x21#8, 0x50#8, 0x02#8, 0xA5#8, 0x5A#8] = .ok (.wrreg 0x50#8 [0xA5#8, 0x5A#8]) ∧
  decode [0x30#8, 0x01#8] = .ok (.setmode .hour24) ∧
  decode [0x31#8] = .ok .getst

/-- The decoder undoes the encoder on every well-formed instruction (rules R42 to R45). -/
def Obligations.DecodeUndoesEncode : Prop :=
  ∀ i : Instr, i.wellFormed = true → decode (encode i) = .ok i

/-- A frame has one meaning: what decodes to an instruction is that instruction's own frame (rules R42 to R45). -/
def Obligations.EncodeUndoesDecode : Prop :=
  ∀ (F : List Byte) (i : Instr), decode F = .ok i → encode i = F ∧ i.wellFormed = true

/-- The decoder refuses exactly the frames rule R46 (a) to (d) calls illegal. -/
def Obligations.IllegalFramesAreExactlyThose : Prop :=
  ∀ F : List Byte, (∃ e, decode F = .error e) ↔ IllegalFrame F

/-! ### The step -/

/-- A frame the idle block takes and the decoder accepts runs as `exec` of its instruction: the frame has left the
host's inputs (rules R3, R36), the cut it brings is pending (log entry 3) and the trace starts empty. That it starts empty at every accepted frame, and not at the
first after reset alone (rule R122), is the model's reading of 00_scope.md section 5's trace (log entry 12). -/
def Obligations.StepRunsTheDecodedFrame : Prop :=
  ∀ (s : State) (F : List Byte) (cut : Option Nat) (others : List HostInput) (i : Instr), s.pseq = .idle →
    s.host.inputs = .frame F cut :: others → decode F = .ok i → step s = exec i (taken s cut others)

/-- Rules R46 and R107: an illegal frame, as R46 (a) to (d) lists them, is answered `[ST_ILLEGAL]`, with no event and
no state change, and no other frame is. -/
def Obligations.StIllegalExactlyForIllegalFrames : Prop :=
  ∀ (s : State) (F : List Byte) (cut : Option Nat) (others : List HostInput), s.pseq = .idle →
    s.host.inputs = .frame F cut :: others →
    (IllegalFrame F → step s = .next (answered (taken s cut others) [0x02#8])) ∧
    (∀ t, step s = .next t → Returned s t [0x02#8] → IllegalFrame F)

/-- An idle block with nothing at its inputs waits (rule R120). -/
def Obligations.IdleBlockWaits : Prop :=
  ∀ s : State, s.pseq = .idle → s.host.inputs = [] → step s = .next s

/-- Rule R121 and the reset of rule R120: a reset or CANCEL between operations puts the block in its reset state,
returns no response and causes no downstream event. -/
def Obligations.ResetInputResetsTheBlock : Prop :=
  ∀ (s : State) (k : Signal) (others : List HostInput), s.pseq = .idle → s.host.inputs = .signal k :: others →
    ∃ t, step s = .next t ∧ BlockReset t ∧ t.host = { s.host with inputs := others } ∧ t.downstream = s.downstream

/-- The reset state (10_state.md section 7): HMODE.V = 0, FLAGS = 0, PSEQ idle, no trace; GETST there answers
`[0x00, 0x00, 0xFF]` and the hour operations `[0x03]`. HMODE.M is left unsaid: its value there is log entry 4. -/
def Obligations.ResetStateIsAsStated : Prop :=
  BlockReset State.reset ∧
  exec .getst State.reset = .next (answered State.reset [0x00#8, 0x00#8, 0xFF#8]) ∧
  ∀ b : Byte, exec (.hrdec b) State.reset = .next (answered State.reset [0x03#8]) ∧
    exec (.hrenc b) State.reset = .next (answered State.reset [0x03#8])

/-! ### The BCD unit -/

/-- Rule R80: BCD2BIN; outside valid BCD the value is the spec's own decision D10 (log entry 10). -/
def Obligations.Bcd2binGivesTensAndUnits : Prop :=
  (∀ b : Byte, decode [0x01#8, b] = .ok (.bcd2bin b)) ∧ OtherLengthsIllegal 0x01#8 1 ∧
  ∀ (b : Byte) (s : State), exec (.bcd2bin b) s =
    .next (answered { s with flags := if b.toNat / 16 > 9 ∨ b.toNat % 16 > 9 then 0x01#8 else 0x00#8 }
      [0x00#8, BitVec.ofNat 8 (10 * (b.toNat / 16) + b.toNat % 16)])

/-- Rule R82: BIN2BCD; above 99 the value is the spec's own decision D10 (log entry 10). -/
def Obligations.Bin2bcdGivesTwoDigits : Prop :=
  (∀ v : Byte, decode [0x02#8, v] = .ok (.bin2bcd v)) ∧ OtherLengthsIllegal 0x02#8 1 ∧
  ∀ (v : Byte) (s : State), exec (.bin2bcd v) s =
    .next (answered { s with flags := if v.toNat > 99 then 0x02#8 else 0x00#8 }
      [0x00#8, BitVec.ofNat 8 ((16 * (v.toNat / 10) + v.toNat % 10) % 256)])

/-- The BCD round trips (42_bcd_hour.md, the round-trip law): `bcd2bin(bin2bcd(v)) = v` on [0, 99] and `bin2bcd(bcd2bin(x)) = x`
on the 100 valid BCD bytes, with FLAGS = 0 throughout; and how far each reaches by the formulas of rules R80 and R82
(v up to 159, x with a units digit), which is further than the rule's prose says (log entry 26). -/
def Obligations.BcdRoundTrip : Prop :=
  (∀ (v : Byte) (s : State), v.toNat ≤ 99 →
    ∃ e : Byte, exec (.bin2bcd v) s = .next (answered { s with flags := 0x00#8 } [0x00#8, e]) ∧
      exec (.bcd2bin e) s = .next (answered { s with flags := 0x00#8 } [0x00#8, v])) ∧
  (∀ (x : Byte) (s : State), x.toNat / 16 ≤ 9 → x.toNat % 16 ≤ 9 →
    ∃ v : Byte, exec (.bcd2bin x) s = .next (answered { s with flags := 0x00#8 } [0x00#8, v]) ∧
      exec (.bin2bcd v) s = .next (answered { s with flags := 0x00#8 } [0x00#8, x])) ∧
  (∀ (s t u : State) (v e w : Byte),
    exec (.bin2bcd v) s = .next t → Returned s t [0x00#8, e] →
    exec (.bcd2bin e) t = .next u → Returned t u [0x00#8, w] → (w = v ↔ v.toNat ≤ 159)) ∧
  (∀ (x : Byte) (s t u : State) (v e : Byte),
    exec (.bcd2bin x) s = .next t → Returned s t [0x00#8, v] →
    exec (.bin2bcd v) t = .next u → Returned t u [0x00#8, e] → (e = x ↔ x.toNat % 16 ≤ 9))

/-- Rule R83's sentence on the converse, to the letter: it holds exactly for the 100 valid BCD bytes. It is expected
to fail: 0xA0 round-trips too, as the rule's own example shows (log entry 26). -/
def Obligations.BcdConverseOnlyOnValidBytes : Prop :=
  ∀ (x : Byte) (s t u : State) (v e : Byte),
    exec (.bcd2bin x) s = .next t → Returned s t [0x00#8, v] →
    exec (.bin2bcd v) t = .next u → Returned t u [0x00#8, e] →
    (e = x ↔ x.toNat / 16 ≤ 9 ∧ x.toNat % 16 ≤ 9)

/-- Rule R84: HRDEC in its three cases, the byte's bits written as quotients and remainders. -/
def Obligations.HrdecDecodesUnderTheHeldMode : Prop :=
  (∀ b : Byte, decode [0x03#8, b] = .ok (.hrdec b)) ∧ OtherLengthsIllegal 0x03#8 1 ∧
  ∀ (b : Byte) (s : State),
    (s.hmode.v = false → exec (.hrdec b) s = .next (answered s [0x03#8])) ∧
    (s.hmode.v = true → s.hmode.m = .hour24 →
      ∀ m hr, m = b.toNat % 128 → hr = 10 * (m / 16) + m % 16 →
      exec (.hrdec b) s =
        .next (answered
          { s with flags := BitVec.ofNat 8 ((if hr > 23 then 2 else 0) + (if m % 16 > 9 then 1 else 0)) }
          [0x00#8, BitVec.ofNat 8 hr, BitVec.ofNat 8 hr, BitVec.ofNat 8 (128 * (b.toNat / 128))])) ∧
    (s.hmode.v = true → s.hmode.m = .hour12 →
      ∀ m hr pm, m = b.toNat % 32 → hr = 10 * (m / 16) + m % 16 → pm = b.toNat / 32 % 2 →
      exec (.hrdec b) s =
        .next (answered
          { s with flags := BitVec.ofNat 8 ((if hr = 0 ∨ hr > 12 then 2 else 0) + (if m % 16 > 9 then 1 else 0)) }
          [0x00#8, BitVec.ofNat 8 hr, BitVec.ofNat 8 (hr % 12 + 12 * pm),
            BitVec.ofNat 8 (128 * (b.toNat / 128) + pm)]))

/-- Rule R86: HRENC in its three cases; on 0 to 23 the bytes are rule R86 (c)'s two tables. -/
def Obligations.HrencEncodesUnderTheHeldMode : Prop :=
  (∀ h : Byte, decode [0x04#8, h] = .ok (.hrenc h)) ∧ OtherLengthsIllegal 0x04#8 1 ∧
  ∀ (h : Byte) (s : State),
    (s.hmode.v = false → exec (.hrenc h) s = .next (answered s [0x03#8])) ∧
    (s.hmode.v = true → s.hmode.m = .hour24 → exec (.hrenc h) s =
      .next (answered { s with flags := if h.toNat > 23 then 0x02#8 else 0x00#8 }
        [0x00#8, BitVec.ofNat 8 ((16 * (h.toNat / 10) + h.toNat % 10) % 256) ||| 0x80#8])) ∧
    (s.hmode.v = true → s.hmode.m = .hour12 → exec (.hrenc h) s =
      .next (answered { s with flags := if h.toNat > 23 then 0x02#8 else 0x00#8 }
        [0x00#8,
          if h.toNat = 0 then 0x12#8
          else if h.toNat < 12 then BitVec.ofNat 8 (16 * (h.toNat / 10) + h.toNat % 10)
          else if h.toNat = 12 then 0x32#8
          else BitVec.ofNat 8 ((16 * ((h.toNat - 12) / 10) + (h.toNat - 12) % 10) % 256) ||| 0x20#8]))

/-- Rule R109: HRDEC and HRENC before any SETMODE, and only they, are answered `[ST_NOMODE]`, with no event and no
state change. -/
def Obligations.StNomodeExactlyForUnsetHourOperations : Prop :=
  ∀ (s : State) (i : Instr),
    ((∃ b, i = .hrdec b ∨ i = .hrenc b) → s.hmode.v = false → exec i s = .next (answered s [0x03#8])) ∧
    (∀ t, exec i s = .next t → Returned s t [0x03#8] → (∃ b, i = .hrdec b ∨ i = .hrenc b) ∧ s.hmode.v = false)

/-- Rule R87: the hour laws (a) to (c) for every hour of the day. -/
def Obligations.HourLaws : Prop :=
  ∀ (h : Byte) (s : State), h.toNat ≤ 23 →
    (s.hmode = ⟨true, .hour24⟩ →
      ∃ e : Byte, exec (.hrenc h) s = .next (answered { s with flags := 0x00#8 } [0x00#8, e]) ∧
        exec (.hrdec e) s = .next (answered { s with flags := 0x00#8 } [0x00#8, h, h, 0x80#8])) ∧
    (s.hmode = ⟨true, .hour12⟩ →
      ∃ e : Byte, exec (.hrenc h) s = .next (answered { s with flags := 0x00#8 } [0x00#8, e]) ∧
        exec (.hrdec e) s = .next (answered { s with flags := 0x00#8 }
          [0x00#8, if h.toNat % 12 = 0 then 12#8 else BitVec.ofNat 8 (h.toNat % 12), h,
            if h.toNat ≥ 12 then 0x01#8 else 0x00#8])) ∧
    (∀ (m m' : HourMode) (e : Byte), s.hmode = ⟨true, m⟩ →
      exec (.hrenc h) s = .next (answered { s with flags := 0x00#8 } [0x00#8, e]) →
      ∃ (t u w : State) (hr fl e' hr' fl' : Byte),
        exec (.hrdec e) s = .next t ∧ Returned s t [0x00#8, hr, h, fl] ∧
        exec (.setmode m') t = .next u ∧
        exec (.hrenc h) u = .next w ∧ Returned u w [0x00#8, e'] ∧
        ∃ x, exec (.hrdec e') w = .next x ∧ Returned w x [0x00#8, hr', h, fl'])

/-! ### The fixed-point unit -/

/-- Rule R95: COORD; the fraction's byte order is the spec's own decision D11, a fraction above 99999 its D10
(log entries 9 and 10). -/
def Obligations.CoordGivesBothScaledValues : Prop :=
  (∀ d0 d1 d2 d3 d4 d5 : Byte, decode [0x10#8, d0, d1, d2, d3, d4, d5] = .ok (.coord d0 d1 d2 d3 d4 d5)) ∧
  OtherLengthsIllegal 0x10#8 6 ∧
  ∀ (d0 d1 d2 d3 d4 d5 : Byte) (s : State) (frac p d : Nat),
    frac = d2.toNat * 65536 + d3.toNat * 256 + d4.toNat →
    p = d0.toNat * 10000000 + d1.toNat * 100000 + frac →
    d = d0.toNat * 6000000 + d1.toNat * 100000 + frac →
    p < 2 ^ 32 ∧ d < 2 ^ 31 ∧
    exec (.coord d0 d1 d2 d3 d4 d5) s =
      .next (answered { s with flags := if frac > 99999 then 0x02#8 else 0x00#8 }
        [0x00#8,
          BitVec.ofNat 8 (p / 16777216), BitVec.ofNat 8 (p / 65536), BitVec.ofNat 8 (p / 256), BitVec.ofNat 8 p,
          BitVec.ofNat 8 (d / 16777216), BitVec.ofNat 8 (d / 65536), BitVec.ofNat 8 (d / 256), BitVec.ofNat 8 d,
          d5])

/-- Rule R96: read as 32-bit numbers, COORD's two results over 100000 and over 6000000 are the packed value and the
decimal degrees, exactly. -/
def Obligations.CoordResultsAreExactRationals : Prop :=
  ∀ (d0 d1 d2 d3 d4 d5 : Byte) (s t : State) (p3 p2 p1 p0 q3 q2 q1 q0 dir : Byte),
    exec (.coord d0 d1 d2 d3 d4 d5) s = .next t →
    Returned s t [0x00#8, p3, p2, p1, p0, q3, q2, q1, q0, dir] →
    (((p3 ++ p2 ++ p1 ++ p0).toNat : ℚ) / 100000 =
      d0.toNat * 100 + d1.toNat + ((d2 ++ d3 ++ d4).toNat : ℚ) / 100000) ∧
    (((q3 ++ q2 ++ q1 ++ q0).toNat : ℚ) / 6000000 =
      d0.toNat + (d1.toNat : ℚ) / 60 + ((d2 ++ d3 ++ d4).toNat : ℚ) / 100000 / 60)

/-- Rule R98: FIX3. -/
def Obligations.Fix3GivesHundredths : Prop :=
  (∀ b0 b1 b2 : Byte, decode [0x11#8, b0, b1, b2] = .ok (.fix3 b0 b1 b2)) ∧ OtherLengthsIllegal 0x11#8 3 ∧
  ∀ (b0 b1 b2 : Byte) (s : State) (val : Nat),
    val = (b0.toNat % 128 * 256 + b1.toNat) * 100 + b2.toNat →
    val < 2 ^ 24 ∧
    exec (.fix3 b0 b1 b2) s =
      .next (answered { s with flags := if b0.toNat ≥ 128 then 0x02#8 else 0x00#8 }
        [0x00#8, BitVec.ofNat 8 (val / 65536), BitVec.ofNat 8 (val / 256), BitVec.ofNat 8 val])

/-! ### Mode and status -/

/-- Rule R60: SETMODE writes both fields of HMODE and nothing else; an operand above 1 is an illegal frame. -/
def Obligations.SetmodeWritesHmode : Prop :=
  OtherLengthsIllegal 0x30#8 1 ∧
  (∀ (m : Byte) (s : State) (cut : Option Nat) (others : List HostInput), m.toNat > 1 → s.pseq = .idle →
    s.host.inputs = .frame [0x30#8, m] cut :: others → step s = .next (answered (taken s cut others) [0x02#8])) ∧
  (∀ (m : HourMode) (s : State),
    exec (.setmode m) s = .next (answered { s with hmode := ⟨true, m⟩ } [0x00#8])) ∧
  decode [0x30#8, 0x00#8] = .ok (.setmode .hour12) ∧ decode [0x30#8, 0x01#8] = .ok (.setmode .hour24)

/-- Rule R61: GETST returns the two flag bits and the mode byte and changes nothing. -/
def Obligations.GetstReadsFlagsAndMode : Prop :=
  decode [0x31#8] = .ok .getst ∧ OtherLengthsIllegal 0x31#8 0 ∧
  ∀ s : State, exec .getst s =
    .next (answered s [0x00#8, BitVec.ofNat 8 (s.flags.toNat % 4),
      if s.hmode.v = false then 0xFF#8 else if s.hmode.m = .hour12 then 0x00#8 else 0x01#8])

/-! ### Register access -/

/-- Rule R66: RDREG, as its complete traces (rule R69) and the response of each, for whatever the downstream agent answers.
The read answer's bytes are at most `len`; HMODE, FLAGS and all else stay. -/
def Obligations.RdregFollowsItsTraceTable : Prop :=
  (∀ reg len : Byte, decode [0x20#8, reg, len] = .ok (.rdreg reg len)) ∧ OtherLengthsIllegal 0x20#8 2 ∧
  ∀ (reg len : Byte) (s : State),
    (len.toNat = 0 → noCutWithin 0 s = true → exec (.rdreg reg len) s = .next (answered s [0x01#8])) ∧
    (len.toNat ≠ 0 → ¬ (0x30 ≤ reg.toNat ∧ reg.toNat ≤ 0x79) →
      ∀ (r : BusReply) (d : Downstream), noCutWithin 1 s = true →
      (s.downstream.sees (.read reg len)).answer (.read reg len) = (some r, d) →
      r.data.length ≤ len.toNat ∧
      exec (.rdreg reg len) s = .next (answered (afterEvents s [.read reg len] d)
        (if r.st ≠ 0 then [0x01#8] else if r.data.length < len.toNat then [0x04#8] else 0x00#8 :: r.data))) ∧
    (len.toNat ≠ 0 → 0x30 ≤ reg.toNat → reg.toNat ≤ 0x79 →
      ∀ (w : BusReply) (d1 : Downstream),
      (s.downstream.sees (.write Config.selectReg [reg, len])).answer (.write Config.selectReg [reg, len])
        = (some w, d1) →
      (w.st ≠ 0 → noCutWithin 1 s = true →
        exec (.rdreg reg len) s =
          .next (answered (afterEvents s [.write Config.selectReg [reg, len]] d1) [0x01#8])) ∧
      (w.st = 0 → noCutWithin 3 s = true →
        ∀ (r : BusReply) (d2 : Downstream),
        ((d1.sees .settle).sees (.read reg len)).answer (.read reg len) = (some r, d2) →
        r.data.length ≤ len.toNat ∧
        exec (.rdreg reg len) s =
          .next (answered
            (afterEvents s [.write Config.selectReg [reg, len], .settle, .read reg len] d2)
            (if r.st ≠ 0 then [0x01#8] else if r.data.length < len.toNat then [0x04#8] else 0x00#8 :: r.data))))

/-- Rule R70: WRREG, as its complete traces (rule R71) and the response of each; it is never primed, whatever `reg` is. -/
def Obligations.WrregFollowsItsTraceTable : Prop :=
  (∀ (reg len : Byte) (data : List Byte), data.length = len.toNat →
    decode (0x21#8 :: reg :: len :: data) = .ok (.wrreg reg data)) ∧
  (∀ (s : State) (rest : List Byte) (cut : Option Nat) (others : List HostInput),
    (rest.length < 2 ∨ ∃ reg len data, rest = reg :: len :: data ∧ data.length ≠ len.toNat) → s.pseq = .idle →
    s.host.inputs = .frame (0x21#8 :: rest) cut :: others →
    step s = .next (answered (taken s cut others) [0x02#8])) ∧
  ∀ (reg : Byte) (data : List Byte) (s : State),
    (data.length = 0 → noCutWithin 0 s = true → exec (.wrreg reg data) s = .next (answered s [0x01#8])) ∧
    (data.length ≠ 0 → ∀ (w : BusReply) (d : Downstream),
      (s.downstream.sees (.write reg data)).answer (.write reg data) = (some w, d) →
      (w.st ≠ 0 → noCutWithin 1 s = true →
        exec (.wrreg reg data) s = .next (answered (afterEvents s [.write reg data] d) [0x01#8])) ∧
      (w.st = 0 → noCutWithin 2 s = true →
        exec (.wrreg reg data) s =
          .next (answered (afterEvents s [.write reg data, .settle] (d.sees .settle)) [0x00#8])))

/-- A success response of RDREG carries exactly `len` bytes (rules R49, R66). -/
def Obligations.RdregSuccessCarriesLenBytes : Prop :=
  ∀ (reg len : Byte) (s t : State) (data : List Byte),
    exec (.rdreg reg len) s = .next t → Returned s t (0x00#8 :: data) → data.length = len.toNat

/-- The cut traces of RDREG (rule R112): a reset or CANCEL after `k` events leaves exactly the first `k` events of the
operation downstream, no response, and the block in its reset state. -/
def Obligations.RdregCutLeavesAPartialTrace : Prop :=
  ∀ (reg len : Byte) (s : State) (k : Nat), s.host.cut = some k →
    (k = 0 ∨
     (len.toNat ≠ 0 ∧ ¬ (0x30 ≤ reg.toNat ∧ reg.toNat ≤ 0x79) ∧ k = 1) ∨
     (len.toNat ≠ 0 ∧ 0x30 ≤ reg.toNat ∧ reg.toNat ≤ 0x79 ∧ k ≤ 3 ∧
      (k = 1 ∨ ∃ (w : BusReply) (d : Downstream), w.st = 0 ∧
        (s.downstream.sees (.write Config.selectReg [reg, len])).answer (.write Config.selectReg [reg, len])
          = (some w, d)))) →
    ∃ t, exec (.rdreg reg len) s = .next t ∧ BlockReset t ∧ t.host = { s.host with cut := none } ∧
      t.downstream.log = s.downstream.log ++
        (if 0x30 ≤ reg.toNat ∧ reg.toNat ≤ 0x79
          then [.write Config.selectReg [reg, len], .settle, .read reg len]
          else [.read reg len]).take k

/-- The cut traces of WRREG (rule R112). -/
def Obligations.WrregCutLeavesAPartialTrace : Prop :=
  ∀ (reg : Byte) (data : List Byte) (s : State) (k : Nat), s.host.cut = some k →
    (k = 0 ∨ (data.length ≠ 0 ∧ k = 1) ∨
     (data.length ≠ 0 ∧ k = 2 ∧ ∃ (w : BusReply) (d : Downstream), w.st = 0 ∧
       (s.downstream.sees (.write reg data)).answer (.write reg data) = (some w, d))) →
    ∃ t, exec (.wrreg reg data) s = .next t ∧ BlockReset t ∧ t.host = { s.host with cut := none } ∧
      t.downstream.log = s.downstream.log ++ [.write reg data, .settle].take k

/-- A transfer that never returns, whichever of the operation's transfers it is, leaves the operation waiting in that
step of the sequencer with no response, the events up to that transfer standing downstream
(93_implementation_defined.md U20; the waiting state is the model's, log entry 6). -/
def Obligations.SilentTransferLeavesTheBlockWaiting : Prop :=
  ∀ s : State,
    (∀ rest, s.downstream.answers = .never :: rest → noCutWithin 1 s = true →
      (∀ reg len : Byte, len.toNat ≠ 0 → ¬ (0x30 ≤ reg.toNat ∧ reg.toNat ≤ 0x79) →
        ∃ t, exec (.rdreg reg len) s = .next t ∧ Waits s t .read [.read reg len]) ∧
      (∀ reg len : Byte, len.toNat ≠ 0 → 0x30 ≤ reg.toNat → reg.toNat ≤ 0x79 →
        ∃ t, exec (.rdreg reg len) s = .next t ∧ Waits s t .primeWr [.write Config.selectReg [reg, len]]) ∧
      (∀ (reg : Byte) (data : List Byte), data.length ≠ 0 →
        ∃ t, exec (.wrreg reg data) s = .next t ∧ Waits s t .write [.write reg data])) ∧
    (∀ reg len : Byte, len.toNat ≠ 0 → 0x30 ≤ reg.toNat → reg.toNat ≤ 0x79 → noCutWithin 3 s = true →
      ∀ (w : BusReply) (d1 d2 : Downstream),
      (s.downstream.sees (.write Config.selectReg [reg, len])).answer (.write Config.selectReg [reg, len])
        = (some w, d1) → w.st = 0 →
      ((d1.sees .settle).sees (.read reg len)).answer (.read reg len) = (none, d2) →
      ∃ t, exec (.rdreg reg len) s = .next t ∧
        Waits s t .read [.write Config.selectReg [reg, len], .settle, .read reg len])

/-- A block that waits on a transfer accepts no frame: a reset or CANCEL behind any number of frames resets it and
leaves those frames waiting, and with none coming it is stuck (rules R3, R112, R131; log entries 6 and 17). -/
def Obligations.WaitingBlockTakesOnlyResetOrCancel : Prop :=
  ∀ (s : State) (Fs : List (List Byte × Option Nat)), s.pseq ≠ .idle →
    (∀ (k : Signal) (others : List HostInput), s.host.inputs = framesOnly Fs ++ .signal k :: others →
      ∃ t, step s = .next t ∧ BlockReset t ∧ t.host = { s.host with inputs := framesOnly Fs ++ others } ∧
        t.downstream = s.downstream) ∧
    (s.host.inputs = framesOnly Fs → step s = .fault .transferNeverReturns)

/-! ### Rules of the whole machine -/

/-- Rule R13: an operation that returns a status other than ST_OK changes neither HMODE nor FLAGS. -/
def Obligations.FailureChangesNoState : Prop :=
  ∀ (s t : State) (st : Byte) (rest : List Byte), step s = .next t → Returned s t (st :: rest) → st ≠ 0x00#8 →
    t.hmode = s.hmode ∧ t.flags = s.flags

/-- Only SETMODE writes HMODE, a reset or CANCEL apart (rule R10). -/
def Obligations.OnlySetmodeWritesHmode : Prop :=
  ∀ (i : Instr) (s t : State), exec i s = .next t → s.host.cut = none → (∀ m, i ≠ .setmode m) →
    t.hmode = s.hmode

/-- Only a codec operation writes FLAGS, a reset or CANCEL apart, and where it does not refuse it overwrites both bits
whatever they were (rule R12). -/
def Obligations.OnlyCodecsWriteFlags : Prop :=
  ∀ (i : Instr) (s t : State), exec i s = .next t →
    (isCodec i = false → s.host.cut = none → t.flags = s.flags) ∧
    (isCodec i = true → Returned s t [0x03#8] ∨
      (t.flags &&& 0xFC#8 = 0x00#8 ∧
        ∀ f : BitVec 8, ∃ u, exec i { s with flags := f } = .next u ∧ u.flags = t.flags))

/-- Which operations can return which status (rules R106 to R109): ST_FAIL a register operation, ST_SHORT RDREG,
ST_NOMODE an hour operation; `exec` never returns ST_ILLEGAL. -/
def Obligations.StatusesNameTheirOperations : Prop :=
  ∀ (i : Instr) (s t : State) (st : Byte) (rest : List Byte), exec i s = .next t → Returned s t (st :: rest) →
    st ≠ 0x02#8 ∧ st.toNat ≤ 4 ∧
    (st = 0x01#8 → isRegAccess i = true) ∧
    (st = 0x03#8 → ∃ b, i = .hrdec b ∨ i = .hrenc b) ∧
    (st = 0x04#8 → ∃ reg len, i = .rdreg reg len ∧ len.toNat ≠ 0)

/-- Codec, mode and status operations cause no downstream event and do not depend on the downstream agent (rule R1). -/
def Obligations.PureOperationsNeverTouchTheBus : Prop :=
  ∀ (i : Instr) (s : State) (d : Downstream), isRegAccess i = false →
    ∃ t, exec i s = .next t ∧ t.downstream = s.downstream ∧ t.trace = s.trace ∧
      exec i { s with downstream := d } = .next { t with downstream := d }

/-- BCD2BIN, BIN2BCD, COORD, FIX3, RDREG and WRREG do not depend on HMODE (rule R10). -/
def Obligations.ModeFreeOperationsIgnoreHmode : Prop :=
  ∀ (i : Instr) (s t : State) (h : HMode),
    (∀ b, i ≠ .hrdec b) → (∀ b, i ≠ .hrenc b) → (∀ m, i ≠ .setmode m) → i ≠ .getst →
    exec i s = .next t →
    ∃ u, exec i { s with hmode := h } = .next u ∧ u.flags = t.flags ∧ u.pseq = t.pseq ∧ u.trace = t.trace ∧
      u.host = t.host ∧ u.downstream = t.downstream

/-- A step adds at most one BusRead, one BusWrite and one Settle to what the agent has seen, after everything earlier,
and answers at most one frame (rules R3, R31, R33, R36, R131). -/
def Obligations.StepAddsOneOperationsEvents : Prop :=
  ∀ s t : State, step s = .next t →
    ∃ (evs : List BusEvent) (rs : List (List Byte)),
      t.downstream.log = s.downstream.log ++ evs ∧ t.host.received = s.host.received ++ rs ∧ rs.length ≤ 1 ∧
      (evs.filter fun e => match e with | .read _ _ => true | .write _ _ => false | .settle => false).length ≤ 1 ∧
      (evs.filter fun e => match e with | .read _ _ => false | .write _ _ => true | .settle => false).length ≤ 1 ∧
      evs.count .settle ≤ 1

/-- The invariant of the downstream port is kept by every step: legal events, every read of the primed range directly
after its own priming write and settle, every settle after a write (rules R22, R24, R25, R27, R67). -/
def Obligations.StepKeepsThePortDiscipline : Prop :=
  ∀ s t : State, PortOk s → step s = .next t → PortOk t

/-- The invariant of registers and responses is kept by every step: FLAGS[7:2] are 0, every response is legal, PSEQ
stands in no settle step between operations (rules R11, R16, R41, R105). -/
def Obligations.StepKeepsTheHostDiscipline : Prop :=
  ∀ s t : State, HostOk s → step s = .next t → HostOk t

/-- Both invariants hold in the reset state (rules R19, R122). That nothing has been handed over, returned or seen there is
the model's own choice (log entries 2 and 5). -/
def Obligations.ResetMeetsBothDisciplines : Prop := PortOk State.reset ∧ HostOk State.reset

/-- While the block alone drives the bus, after any step no foreign event stands between a priming write and its read on
the bus (rules R39, R127). -/
def Obligations.PrimingWindowIsExclusive : Prop :=
  ∀ (s t : State) (bus : List (Master × BusEvent)), PortOk s → step s = .next t → ExclusiveOwnership bus →
    blockEvents bus = t.downstream.log →
    ∀ before m a n after, bus = before ++ (m, .read a n) :: after → 0x30 ≤ a.toNat → a.toNat ≤ 0x79 →
      ∃ earlier, before = earlier ++ [(.block, .write Config.selectReg [a, n]), (.block, .settle)]

/-- HMODE.M cannot be observed while HMODE.V = 0 (rule R19): two runs that start in states that differ in nothing else
stay alike, in their responses and in their traffic, for any number of steps. -/
def Obligations.UnsetModeBitIsUnobservable : Prop :=
  ∀ (n : Nat) (s t : State), SameButUnsetMode s t → SameOutcome (core.run n s) (core.run n t)

/-- With a downstream agent that always answers and no reset or CANCEL asserted, every frame the host hands over is
answered by exactly one response, and the block is ready again (rules R3, R105, R131). -/
def Obligations.EveryFrameIsAnswered : Prop :=
  ∀ (s : State) (Fs : List (List Byte)), s.pseq = .idle → transfersReturn s = true →
    s.host.inputs = Fs.map (.frame · none) →
    ∃ (t : State) (rs : List (List Byte)), core.run Fs.length s = .next t ∧ rs.length = Fs.length ∧
      t.host.received = s.host.received ++ rs ∧ t.host.inputs = [] ∧ t.pseq = .idle

/-- Under the premise that the transport honours the post-read settle, a step that answers keeps every transfer followed
by a pause, unless its operation ends in a BusWrite; and one that answers ST_OK does not end so, since the block itself
settles after every successful BusWrite (rules R27, R126; log entry 27). -/
def Obligations.EveryTransferIsFollowedByAPause : Prop :=
  ∀ (s t : State) (st : Byte) (rest : List Byte), step s = .next t → Returned s t (st :: rest) →
    (st = 0x00#8 → ¬ EndsInWrite t.trace) ∧
    (¬ EndsInWrite t.trace → ∀ before line : List LineEvent, blockPart before = s.downstream.log →
      SettledThroughout before → blockPart (before ++ line) = t.downstream.log → PostReadSettle line →
      SettledThroughout (before ++ line))

/-- CANCEL can arrive at any time, and as often as the host asserts it (rule R112): in a sequence of operations of any
length, each register operation may be cut after any number of its own events, whatever was cut or completed before it.
Each leaves exactly that many of its events downstream and returns nothing; each operation not cut issues its whole trace
and returns one response. The premise is an agent known to answer every transfer with status 0. -/
def Obligations.EveryOperationCanBeCut : Prop :=
  ∀ (s : State) (ops : List (Instr × Option Nat)), s.pseq = .idle →
    s.host.inputs = framesOnly (ops.map fun x => (encode x.1, x.2)) →
    (∀ x ∈ ops, x.1.wellFormed = true ∧
      ∀ k, x.2 = some k → isRegAccess x.1 = true ∧ k ≤ (wholeTrace x.1).length) →
    (∀ a ∈ s.downstream.answers, ∃ r, a = .reply r ∧ r.st = 0) → 2 * ops.length ≤ s.downstream.answers.length →
    ∃ (t : State) (rs : List (List Byte)), core.run ops.length s = .next t ∧ t.pseq = .idle ∧ t.host.inputs = [] ∧
      t.downstream.log = s.downstream.log ++
        ops.flatMap (fun x => match x.2 with
          | none => wholeTrace x.1
          | some k => (wholeTrace x.1).take k) ∧
      t.host.received = s.host.received ++ rs ∧ rs.length = ops.countP (fun x => x.2.isNone) ∧
      (∀ k, (ops.getLast?).map (·.2) = some (some k) → BlockReset t)
end

