-- ==== Sys2Proof/Laws/Decode.lean ====
section
/-! SUPPORT. The opcode map and the decoder, said once (spec 30_encoding.md rules R43 to R47). -/

namespace Sys2Proof

/-- No two operations share an opcode (rule R43). -/
theorem opcodes_distinct : allOps.Pairwise fun a b => opcode a ≠ opcode b := by decide

/-- The opcode byte of an operation selects it. -/
@[simp] theorem opOf_opcode (op : Op) : opOf (opcode op) = some op := by cases op <;> decide

/-- Only an operation's own byte selects it. -/
theorem opcode_of_opOf {b : Byte} {op : Op} (h : opOf b = some op) : b = opcode op := by
  have := List.find?_some h
  simpa using (beq_iff_eq.mp this).symm

theorem decode_opcode_cons (op : Op) (rest : List Byte) : decode (opcode op :: rest) = decodeOperands op rest := by
  simp [decode]

/-- A decoded frame is an opcode byte and that operation's operand bytes. -/
theorem decode_ok_cases {F : List Byte} {i : Instr} (h : decode F = .ok i) :
    ∃ op rest, F = opcode op :: rest ∧ decodeOperands op rest = .ok i := by
  cases F with
  | nil => cases h
  | cons b rest =>
    cases ho : opOf b with
    | none => simp [decode, ho] at h
    | some op => exact ⟨op, rest, by rw [opcode_of_opOf ho], by simpa [decode, ho] using h⟩

end Sys2Proof
end

