-- ==== Sys2Proof/Laws/Operands.lean ====
section
/-! SUPPORT. Arithmetic of the number formats (spec 42_bcd_hour.md rule R81, 43_fixedpoint.md rules R95 and R98). -/

namespace Sys2Proof.Machine

theorem nibHi_eq (b : Byte) : nibHi b = b.toNat / 16 := by
  have := b.isLt
  simp [nibHi, BitVec.extractLsb'_toNat, Nat.shiftRight_eq_div_pow]
  omega

theorem nibLo_eq (b : Byte) : nibLo b = b.toNat % 16 := by
  simp [nibLo, BitVec.extractLsb'_toNat]

theorem bcd2bin_eq (b : Byte) : bcd2bin b = 10 * (b.toNat / 16) + b.toNat % 16 := by
  rw [bcd2bin, nibHi_eq, nibLo_eq]

/-- Rule R81 (a): the subtractive form. -/
theorem bcd2bin_subtractive (b : Byte) : bcd2bin b = b.toNat - 6 * (b.toNat >>> 4) := by
  rw [bcd2bin_eq, Nat.shiftRight_eq_div_pow]
  omega

/-- Rule R81 (c): the result fits a byte. -/
theorem bcd2bin_le (b : Byte) : bcd2bin b ≤ 165 := by
  have := b.isLt
  rw [bcd2bin_eq]
  omega

theorem bin2bcd8_lt (v : Nat) : bin2bcd8 v < 256 := Nat.mod_lt _ (by decide)

/-- Or-ing a byte below a shifted number is adding it. -/
theorem shift_or_byte (a : Nat) (b : Byte) : (a <<< 8) ||| b.toNat = a * 256 + b.toNat := by
  rw [← Nat.shiftLeft_add_eq_or_of_lt b.isLt, Nat.shiftLeft_eq]

theorem fracOf_eq (d2 d3 d4 : Byte) : fracOf d2 d3 d4 = d2.toNat * 65536 + d3.toNat * 256 + d4.toNat := by
  have h : (d2.toNat <<< 16) ||| (d3.toNat <<< 8) = ((d2.toNat <<< 8) ||| d3.toNat) <<< 8 := by
    rw [Nat.shiftLeft_or_distrib, ← Nat.shiftLeft_add]
  rw [fracOf, if_pos (show fracMsbFirst = true from rfl), h, shift_or_byte, shift_or_byte]
  ring

theorem fix3Val_eq (b0 b1 b2 : Byte) :
    fix3Val b0 b1 b2 = (b0.toNat % 128 * 256 + b1.toNat) * 100 + b2.toNat := by
  have h : (b0 &&& 0x7F#8).toNat = b0.toNat % 128 := by
    rw [BitVec.toNat_and]
    exact Nat.and_two_pow_sub_one_eq_mod b0.toNat 7
  rw [fix3Val, h, shift_or_byte, fix3Scale]

/-- Rule R95 (e): neither result of COORD overflows 32 bits. -/
theorem packedOf_lt (deg min d2 d3 d4 : Byte) : packedOf deg.toNat min.toNat (fracOf d2 d3 d4) < 2 ^ 32 := by
  have := deg.isLt
  have := min.isLt
  have := d2.isLt
  have := d3.isLt
  have := d4.isLt
  rw [packedOf, fracOf_eq, packScale]
  omega

theorem ddegOf_lt (deg min d2 d3 d4 : Byte) : ddegOf deg.toNat min.toNat (fracOf d2 d3 d4) < 2 ^ 31 := by
  have := deg.isLt
  have := min.isLt
  have := d2.isLt
  have := d3.isLt
  have := d4.isLt
  rw [ddegOf, fracOf_eq, ddScale]
  omega

/-- The two decode masks are remainders (rule R85). -/
theorem and_mask_hour24 (b : Byte) : (b &&& 0x7F#8).toNat = b.toNat % 128 := by
  rw [BitVec.toNat_and]
  exact Nat.and_two_pow_sub_one_eq_mod b.toNat 7

theorem and_mask_hour12 (b : Byte) : (b &&& 0x1F#8).toNat = b.toNat % 32 := by
  rw [BitVec.toNat_and]
  exact Nat.and_two_pow_sub_one_eq_mod b.toNat 5

/-- Bit 7 and bit 5 of a byte as quotients: F24 and PM (rule R85). -/
theorem bitNat_bit7 : ∀ b : Byte, bitNat (b.getLsbD 7) = b.toNat / 128 := by decide

theorem bitNat_bit5 : ∀ b : Byte, bitNat (b.getLsbD 5) = b.toNat / 32 % 2 := by decide

/-- FLAGS as a number: RNG counts 2 and INV counts 1 (rule R11). -/
theorem packFlags_eq (rng inv : Bool) :
    packFlags rng inv = BitVec.ofNat 8 ((if rng then 2 else 0) + (if inv then 1 else 0)) := by
  cases rng <;> cases inv <;> rfl

/-- FLAGS[7:2] are written 0 (rule R11). -/
theorem packFlags_reserved (rng inv : Bool) : packFlags rng inv &&& 0xFC#8 = 0x00#8 := by
  cases rng <;> cases inv <;> rfl

/-- HRDEC under Hour24 in quotients and remainders (rule R84). -/
theorem decodeHour_hour24 (b : Byte) (m hr : Nat) (hm : m = b.toNat % 128) (hh : hr = 10 * (m / 16) + m % 16) :
    byteOf (decodeHour .hour24 b).hr = BitVec.ofNat 8 hr ∧ byteOf (decodeHour .hour24 b).h24 = BitVec.ofNat 8 hr ∧
    hourFlagByte (decodeHour .hour24 b).f24 (decodeHour .hour24 b).pm = BitVec.ofNat 8 (128 * (b.toNat / 128)) ∧
    packFlags (decodeHour .hour24 b).rng (decodeHour .hour24 b).inv =
      BitVec.ofNat 8 ((if hr > 23 then 2 else 0) + (if m % 16 > 9 then 1 else 0)) := by
  have e : bcd2bin (b &&& 0x7F#8) = hr := by rw [bcd2bin_eq, and_mask_hour24, hh, hm]
  have u : nibLo (b &&& 0x7F#8) = m % 16 := by rw [nibLo_eq, and_mask_hour24, hm]
  refine ⟨?_, ?_, ?_, ?_⟩
  · rw [decodeHour, decodeHour24, e, byteOf]
  · rw [decodeHour, decodeHour24, e, byteOf]
  · rw [decodeHour, decodeHour24, hourFlagByte, bitNat_bit7, byteOf]
    rfl
  · simp only [decodeHour, decodeHour24, packFlags_eq, rngHour24, badUnits, e, u, decide_eq_true_eq]

/-- HRDEC under Hour12 in quotients and remainders (rule R84). -/
theorem decodeHour_hour12 (b : Byte) (m hr pm : Nat) (hm : m = b.toNat % 32) (hh : hr = 10 * (m / 16) + m % 16)
    (hp : pm = b.toNat / 32 % 2) :
    byteOf (decodeHour .hour12 b).hr = BitVec.ofNat 8 hr ∧
    byteOf (decodeHour .hour12 b).h24 = BitVec.ofNat 8 (hr % 12 + 12 * pm) ∧
    hourFlagByte (decodeHour .hour12 b).f24 (decodeHour .hour12 b).pm =
      BitVec.ofNat 8 (128 * (b.toNat / 128) + pm) ∧
    packFlags (decodeHour .hour12 b).rng (decodeHour .hour12 b).inv =
      BitVec.ofNat 8 ((if hr = 0 ∨ hr > 12 then 2 else 0) + (if m % 16 > 9 then 1 else 0)) := by
  have e : bcd2bin (b &&& 0x1F#8) = hr := by rw [bcd2bin_eq, and_mask_hour12, hh, hm]
  have u : nibLo (b &&& 0x1F#8) = m % 16 := by rw [nibLo_eq, and_mask_hour12, hm]
  refine ⟨?_, ?_, ?_, ?_⟩
  · rw [decodeHour, decodeHour12, e, byteOf]
  · simp only [decodeHour, decodeHour12, e, bitNat_bit5, byteOf, hp]
  · simp only [decodeHour, decodeHour12, hourFlagByte, bitNat_bit7, bitNat_bit5, byteOf, hp]
  · simp only [decodeHour, decodeHour12, packFlags_eq, rngHour12, badUnits, e, u, Bool.or_eq_true, decide_eq_true_eq]

theorem be_three (v : Nat) : be 3 v = [byteOf (v / 65536), byteOf (v / 256), byteOf v] := by
  simp [be, List.range, List.range.loop, Nat.shiftRight_eq_div_pow]

theorem be_four (v : Nat) :
    be 4 v = [byteOf (v / 16777216), byteOf (v / 65536), byteOf (v / 256), byteOf v] := by
  simp [be, List.range, List.range.loop, Nat.shiftRight_eq_div_pow]

end Sys2Proof.Machine
end

