-- ==== Sys2Proof/Laws/State.lean ====
section
/-! SUPPORT. One lemma per field per update of the state, each true by rfl, so that no later proof unfolds a record update. -/

namespace Sys2Proof.Machine

variable (s : State)

@[simp] theorem State.respond_hmode (r : List Byte) : (s.respond r).hmode = s.hmode := rfl
@[simp] theorem State.respond_flags (r : List Byte) : (s.respond r).flags = s.flags := rfl
@[simp] theorem State.respond_pseq (r : List Byte) : (s.respond r).pseq = .idle := rfl
@[simp] theorem State.respond_trace (r : List Byte) : (s.respond r).trace = s.trace := rfl
@[simp] theorem State.respond_downstream (r : List Byte) : (s.respond r).downstream = s.downstream := rfl
@[simp] theorem State.respond_host_inputs (r : List Byte) : (s.respond r).host.inputs = s.host.inputs := rfl
@[simp] theorem State.respond_host_cut (r : List Byte) : (s.respond r).host.cut = s.host.cut := rfl
@[simp] theorem State.respond_host_received (r : List Byte) : (s.respond r).host.received = s.host.received ++ [r] := rfl

@[simp] theorem State.raise_hmode (c : Byte) : (s.raise c).hmode = s.hmode := rfl
@[simp] theorem State.raise_flags (c : Byte) : (s.raise c).flags = s.flags := rfl
@[simp] theorem State.raise_pseq (c : Byte) : (s.raise c).pseq = .idle := rfl
@[simp] theorem State.raise_trace (c : Byte) : (s.raise c).trace = s.trace := rfl
@[simp] theorem State.raise_downstream (c : Byte) : (s.raise c).downstream = s.downstream := rfl
@[simp] theorem State.raise_host_inputs (c : Byte) : (s.raise c).host.inputs = s.host.inputs := rfl
@[simp] theorem State.raise_host_cut (c : Byte) : (s.raise c).host.cut = s.host.cut := rfl
@[simp] theorem State.raise_host_received (c : Byte) : (s.raise c).host.received = s.host.received ++ [[c]] := rfl

@[simp] theorem State.writeFlags_hmode (g i : Bool) : (s.writeFlags g i).hmode = s.hmode := rfl
@[simp] theorem State.writeFlags_flags (g i : Bool) : (s.writeFlags g i).flags = packFlags g i := rfl
@[simp] theorem State.writeFlags_pseq (g i : Bool) : (s.writeFlags g i).pseq = s.pseq := rfl
@[simp] theorem State.writeFlags_trace (g i : Bool) : (s.writeFlags g i).trace = s.trace := rfl
@[simp] theorem State.writeFlags_downstream (g i : Bool) : (s.writeFlags g i).downstream = s.downstream := rfl
@[simp] theorem State.writeFlags_host_inputs (g i : Bool) : (s.writeFlags g i).host.inputs = s.host.inputs := rfl
@[simp] theorem State.writeFlags_host_cut (g i : Bool) : (s.writeFlags g i).host.cut = s.host.cut := rfl
@[simp] theorem State.writeFlags_host_received (g i : Bool) : (s.writeFlags g i).host.received = s.host.received := rfl

@[simp] theorem State.writeHmode_hmode (m : HourMode) : (s.writeHmode m).hmode = ⟨true, m⟩ := rfl
@[simp] theorem State.writeHmode_flags (m : HourMode) : (s.writeHmode m).flags = s.flags := rfl
@[simp] theorem State.writeHmode_pseq (m : HourMode) : (s.writeHmode m).pseq = s.pseq := rfl
@[simp] theorem State.writeHmode_trace (m : HourMode) : (s.writeHmode m).trace = s.trace := rfl
@[simp] theorem State.writeHmode_downstream (m : HourMode) : (s.writeHmode m).downstream = s.downstream := rfl
@[simp] theorem State.writeHmode_host_inputs (m : HourMode) : (s.writeHmode m).host.inputs = s.host.inputs := rfl
@[simp] theorem State.writeHmode_host_cut (m : HourMode) : (s.writeHmode m).host.cut = s.host.cut := rfl
@[simp] theorem State.writeHmode_host_received (m : HourMode) : (s.writeHmode m).host.received = s.host.received := rfl

@[simp] theorem State.finishCodec_hmode (g i : Bool) (r : List Byte) : (s.finishCodec g i r).hmode = s.hmode := rfl
@[simp] theorem State.finishCodec_flags (g i : Bool) (r : List Byte) : (s.finishCodec g i r).flags = packFlags g i := rfl
@[simp] theorem State.finishCodec_pseq (g i : Bool) (r : List Byte) : (s.finishCodec g i r).pseq = .idle := rfl
@[simp] theorem State.finishCodec_trace (g i : Bool) (r : List Byte) : (s.finishCodec g i r).trace = s.trace := rfl
@[simp] theorem State.finishCodec_downstream (g i : Bool) (r : List Byte) : (s.finishCodec g i r).downstream = s.downstream := rfl
@[simp] theorem State.finishCodec_host_inputs (g i : Bool) (r : List Byte) : (s.finishCodec g i r).host.inputs = s.host.inputs := rfl
@[simp] theorem State.finishCodec_host_cut (g i : Bool) (r : List Byte) : (s.finishCodec g i r).host.cut = s.host.cut := rfl
@[simp] theorem State.finishCodec_host_received (g i : Bool) (r : List Byte) : (s.finishCodec g i r).host.received = s.host.received ++ [stOk :: r] := rfl

@[simp] theorem State.resetBlock_hmode : s.resetBlock.hmode = HMode.reset := rfl
@[simp] theorem State.resetBlock_flags : s.resetBlock.flags = 0x00#8 := rfl
@[simp] theorem State.resetBlock_pseq : s.resetBlock.pseq = .idle := rfl
@[simp] theorem State.resetBlock_trace : s.resetBlock.trace = [] := rfl
@[simp] theorem State.resetBlock_downstream : s.resetBlock.downstream = s.downstream := rfl
@[simp] theorem State.resetBlock_host_inputs : s.resetBlock.host.inputs = s.host.inputs := rfl
@[simp] theorem State.resetBlock_host_cut : s.resetBlock.host.cut = s.host.cut := rfl
@[simp] theorem State.resetBlock_host_received : s.resetBlock.host.received = s.host.received := rfl

@[simp] theorem State.cancelled_hmode : s.cancelled.hmode = HMode.reset := rfl
@[simp] theorem State.cancelled_flags : s.cancelled.flags = 0x00#8 := rfl
@[simp] theorem State.cancelled_pseq : s.cancelled.pseq = .idle := rfl
@[simp] theorem State.cancelled_trace : s.cancelled.trace = [] := rfl
@[simp] theorem State.cancelled_downstream : s.cancelled.downstream = s.downstream := rfl
@[simp] theorem State.cancelled_host_inputs : s.cancelled.host.inputs = s.host.inputs := rfl
@[simp] theorem State.cancelled_host_cut : s.cancelled.host.cut = none := rfl
@[simp] theorem State.cancelled_host_received : s.cancelled.host.received = s.host.received := rfl

@[simp] theorem State.issue_hmode (q : Pseq) (e : BusEvent) : (s.issue q e).hmode = s.hmode := rfl
@[simp] theorem State.issue_flags (q : Pseq) (e : BusEvent) : (s.issue q e).flags = s.flags := rfl
@[simp] theorem State.issue_pseq (q : Pseq) (e : BusEvent) : (s.issue q e).pseq = q := rfl
@[simp] theorem State.issue_trace (q : Pseq) (e : BusEvent) : (s.issue q e).trace = s.trace ++ [e] := rfl
@[simp] theorem State.issue_downstream (q : Pseq) (e : BusEvent) : (s.issue q e).downstream = s.downstream.sees e := rfl
@[simp] theorem State.issue_host_inputs (q : Pseq) (e : BusEvent) : (s.issue q e).host.inputs = s.host.inputs := rfl
@[simp] theorem State.issue_host_cut (q : Pseq) (e : BusEvent) : (s.issue q e).host.cut = s.host.cut.map (· - 1) := rfl
@[simp] theorem State.issue_host_received (q : Pseq) (e : BusEvent) : (s.issue q e).host.received = s.host.received := rfl

@[simp] theorem State.withInputs_hmode (l : List HostInput) : (s.withInputs l).hmode = s.hmode := rfl
@[simp] theorem State.withInputs_flags (l : List HostInput) : (s.withInputs l).flags = s.flags := rfl
@[simp] theorem State.withInputs_pseq (l : List HostInput) : (s.withInputs l).pseq = s.pseq := rfl
@[simp] theorem State.withInputs_trace (l : List HostInput) : (s.withInputs l).trace = s.trace := rfl
@[simp] theorem State.withInputs_downstream (l : List HostInput) : (s.withInputs l).downstream = s.downstream := rfl
@[simp] theorem State.withInputs_host_inputs (l : List HostInput) : (s.withInputs l).host.inputs = l := rfl
@[simp] theorem State.withInputs_host_cut (l : List HostInput) : (s.withInputs l).host.cut = s.host.cut := rfl
@[simp] theorem State.withInputs_host_received (l : List HostInput) : (s.withInputs l).host.received = s.host.received := rfl

@[simp] theorem State.accept_hmode (c : Option Nat) (l : List HostInput) : (s.accept c l).hmode = s.hmode := rfl
@[simp] theorem State.accept_flags (c : Option Nat) (l : List HostInput) : (s.accept c l).flags = s.flags := rfl
@[simp] theorem State.accept_pseq (c : Option Nat) (l : List HostInput) : (s.accept c l).pseq = s.pseq := rfl
@[simp] theorem State.accept_trace (c : Option Nat) (l : List HostInput) : (s.accept c l).trace = [] := rfl
@[simp] theorem State.accept_downstream (c : Option Nat) (l : List HostInput) : (s.accept c l).downstream = s.downstream := rfl
@[simp] theorem State.accept_host_inputs (c : Option Nat) (l : List HostInput) : (s.accept c l).host.inputs = l := rfl
@[simp] theorem State.accept_host_cut (c : Option Nat) (l : List HostInput) : (s.accept c l).host.cut = c := rfl
@[simp] theorem State.accept_host_received (c : Option Nat) (l : List HostInput) : (s.accept c l).host.received = s.host.received := rfl

@[simp] theorem Downstream.sees_log (d : Downstream) (e : BusEvent) : (d.sees e).log = d.log ++ [e] := rfl
@[simp] theorem Downstream.sees_answers (d : Downstream) (e : BusEvent) : (d.sees e).answers = d.answers := rfl
@[simp] theorem Downstream.sees_replies (d : Downstream) (e : BusEvent) : (d.sees e).replies = d.replies := rfl

end Sys2Proof.Machine
end

