-- ==== Sys2Proof/Laws/Ops.lean ====
section
/-! SUPPORT. What each shared operation can do, said once: answers, cut points, transfers, settles, fetching, the step. -/

namespace Sys2Proof.Machine

open Safety

/-- An answer leaves the agent's log alone and, to a read, brings at most the bytes asked for (rule R24). -/
theorem Downstream.answer_log (e : BusEvent) (d : Downstream) : (d.answer e).2.log = d.log := by
  unfold Downstream.answer
  split <;> rfl

theorem BusReply.heldTo_read_length (a n : Byte) (r : BusReply) :
    (BusReply.heldTo (.read a n) r).data.length ≤ n.toNat := by
  simp only [BusReply.heldTo, List.length_take]
  omega

theorem Downstream.answer_read_length {a n : Byte} {d d' : Downstream} {r : BusReply}
    (h : d.answer (.read a n) = (some r, d')) : r.data.length ≤ n.toNat := by
  unfold Downstream.answer at h
  split at h
  · simp only [Prod.mk.injEq, Option.some.injEq] at h
    exact h.1 ▸ BusReply.heldTo_read_length a n _
  · simp only [Prod.mk.injEq, Option.some.injEq] at h
    exact h.1 ▸ BusReply.heldTo_read_length a n _
  · simp at h

/-- Where no known answer is a silence, an answer comes, and none of those left is a silence (rule R131). -/
theorem Downstream.answer_of_returning {e : BusEvent} {d : Downstream} (h : BusAnswer.never ∉ d.answers) :
    ∃ r d', d.answer e = (some r, d') ∧ BusAnswer.never ∉ d'.answers := by
  unfold Downstream.answer
  split
  · exact ⟨_, _, rfl, h⟩
  · next hr => exact ⟨_, _, rfl, fun hm => h (hr ▸ List.mem_cons_of_mem _ hm)⟩
  · next hr => exact absurd (hr ▸ List.mem_cons_self) h

/-- A cut point goes on exactly when no reset or CANCEL is due at it (rule R112). -/
theorem State.cutPoint_cases (s : State) :
    (s.host.cut = some 0 ∧ s.cutPoint = .over s.cancelled) ∨ (s.host.cut ≠ some 0 ∧ s.cutPoint = .go () s) := by
  unfold State.cutPoint
  split
  · next h => exact .inl ⟨h, rfl⟩
  · next h => exact .inr ⟨h, rfl⟩

/-- Everything a transfer can do: be cut, get its answer, or wait (rules R24, R25, R112). -/
theorem State.transfer_cases (s : State) (q : Pseq) (e : BusEvent) :
    ((s.issue q e).host.cut = some 0 ∧ s.transfer q e = .over (s.issue q e).cancelled) ∨
    (∃ r d, (s.issue q e).host.cut ≠ some 0 ∧ (s.downstream.sees e).answer e = (some r, d) ∧
      s.transfer q e = .go r { s.issue q e with downstream := d }) ∨
    (∃ d, (s.issue q e).host.cut ≠ some 0 ∧ (s.downstream.sees e).answer e = (none, d) ∧
      s.transfer q e = .over { s.issue q e with downstream := d }) := by
  unfold State.transfer
  rcases (s.issue q e).cutPoint_cases with ⟨hc, hp⟩ | ⟨hc, hp⟩
  · exact .inl ⟨hc, by rw [hp]⟩
  · rw [hp]
    rcases ha : (s.downstream.sees e).answer e with ⟨_ | r, d⟩
    · exact .inr (.inr ⟨d, hc, rfl, by simp [ha]⟩)
    · exact .inr (.inl ⟨r, d, hc, rfl, by simp [ha]⟩)

/-- Everything a settle can do: be cut, or go on (rule R27). -/
theorem State.settle_cases (s : State) (q : Pseq) :
    ((s.issue q .settle).host.cut = some 0 ∧ s.settle q = .over (s.issue q .settle).cancelled) ∨
    ((s.issue q .settle).host.cut ≠ some 0 ∧ s.settle q = .go () (s.issue q .settle)) :=
  (s.issue q .settle).cutPoint_cases

/-- With no cut within `n` events, no cut point up to the `n`-th is due. -/
theorem not_due_of_noCutWithin {n k : Nat} {s : State} (h : noCutWithin n s = true) (hk : k ≤ n) :
    s.host.cut.map (· - k) ≠ some 0 := by
  unfold noCutWithin at h
  cases hc : s.host.cut <;> simp_all
  omega

theorem State.cutPoint_go {s : State} (h : s.host.cut ≠ some 0) : s.cutPoint = .go () s := if_neg h

theorem State.cutPoint_due {s : State} (h : s.host.cut = some 0) : s.cutPoint = .over s.cancelled := if_pos h

/-- A transfer that is not cut and is answered goes on with the answer. -/
theorem State.transfer_go {s : State} {q : Pseq} {e : BusEvent} {r : BusReply} {d : Downstream}
    (h : s.host.cut.map (· - 1) ≠ some 0) (ha : (s.downstream.sees e).answer e = (some r, d)) :
    s.transfer q e = .go r { s.issue q e with downstream := d } := by
  have hc : (s.issue q e).cutPoint = .go () (s.issue q e) := State.cutPoint_go h
  simp only [State.transfer, hc, State.issue_downstream, ha]

/-- A transfer that is not cut and never answered waits in its step. -/
theorem State.transfer_wait {s : State} {q : Pseq} {e : BusEvent} {d : Downstream}
    (h : s.host.cut.map (· - 1) ≠ some 0) (ha : (s.downstream.sees e).answer e = (none, d)) :
    s.transfer q e = .over { s.issue q e with downstream := d } := by
  have hc : (s.issue q e).cutPoint = .go () (s.issue q e) := State.cutPoint_go h
  simp only [State.transfer, hc, State.issue_downstream, ha]

/-- A transfer that is cut ends in the reset state. -/
theorem State.transfer_due {s : State} {q : Pseq} {e : BusEvent} (h : s.host.cut.map (· - 1) = some 0) :
    s.transfer q e = .over (s.issue q e).cancelled := by
  have hc : (s.issue q e).cutPoint = .over (s.issue q e).cancelled := State.cutPoint_due h
  simp only [State.transfer, hc]

theorem State.settle_go {s : State} {q : Pseq} (h : s.host.cut.map (· - 1) ≠ some 0) :
    s.settle q = .go () (s.issue q .settle) := State.cutPoint_go h

theorem State.settle_due {s : State} {q : Pseq} (h : s.host.cut.map (· - 1) = some 0) :
    s.settle q = .over (s.issue q .settle).cancelled := State.cutPoint_due h

/-- Counting a pending cut down twice counts it down by the sum. -/
theorem cut_countdown (c : Option Nat) (a b : Nat) : (c.map (· - a)).map (· - b) = c.map (· - (a + b)) := by
  cases c with
  | none => rfl
  | some k => simp [Nat.sub_sub]

/-- The primed range by its bounds (rule R22). -/
theorem primedRange_iff (reg : Byte) : primedRange reg = true ↔ 0x30 ≤ reg.toNat ∧ reg.toNat ≤ 0x79 := by
  simp only [primedRange, Bool.and_eq_true, decide_eq_true_eq]

@[simp] theorem Phase.finish_go {α : Type} (a : α) (s : State) (k : α → State → State) :
    (Phase.go a s).finish k = k a s := rfl

@[simp] theorem Phase.finish_over {α : Type} (s : State) (k : α → State → State) :
    (Phase.over s : Phase α).finish k = s := rfl

/-- Taking a signal out removes exactly the first one. -/
theorem takeSignal_of_frames (Fs : List (List Byte × Option Nat)) (l : List HostInput) :
    takeSignal (framesOnly Fs ++ l) = (takeSignal l).map (framesOnly Fs ++ ·) := by
  induction Fs with
  | nil => simp [framesOnly]
  | cons F Fs ih =>
    simp only [framesOnly, List.map_cons, List.cons_append, takeSignal] at ih ⊢
    rw [ih, Option.map_map]
    rfl

/-- Everything a fetch can do (rules R3, R112, R120, R131). -/
theorem State.fetch_cases (s : State) :
    (s.pseq = .idle ∧ s.host.inputs = [] ∧ s.fetch = .waits) ∨
    (∃ k rest, s.pseq = .idle ∧ s.host.inputs = .signal k :: rest ∧ s.fetch = .signalled (s.withInputs rest)) ∨
    (∃ F c rest, s.pseq = .idle ∧ s.host.inputs = .frame F c :: rest ∧ s.fetch = .frame F (s.accept c rest)) ∨
    (∃ rest, s.pseq ≠ .idle ∧ takeSignal s.host.inputs = some rest ∧ s.fetch = .signalled (s.withInputs rest)) ∨
    (s.pseq ≠ .idle ∧ takeSignal s.host.inputs = none ∧ s.fetch = .stuck) := by
  unfold State.fetch
  by_cases hq : s.pseq = .idle
  · rw [if_pos hq]
    rcases hi : s.host.inputs with _ | ⟨⟨_, c⟩ | _, rest⟩
    · exact .inl ⟨hq, rfl, rfl⟩
    · exact .inr (.inr (.inl ⟨_, c, rest, hq, rfl, rfl⟩))
    · exact .inr (.inl ⟨_, rest, hq, rfl, rfl⟩)
  · rw [if_neg hq]
    cases ht : takeSignal s.host.inputs with
    | none => exact .inr (.inr (.inr (.inr ⟨hq, rfl, rfl⟩)))
    | some rest => exact .inr (.inr (.inr (.inl ⟨rest, hq, rfl, rfl⟩)))

/-- Everything a step that answers a next state can have done. -/
theorem step_next_cases {s t : State} (h : step s = .next t) :
    (s.host.inputs = [] ∧ t = s) ∨
    (∃ rest, t = (s.withInputs rest).resetBlock) ∨
    (∃ F c rest e, s.pseq = .idle ∧ s.host.inputs = .frame F c :: rest ∧ decode F = .error e ∧
      t = (s.accept c rest).illegalFrame) ∨
    (∃ F c rest i, s.pseq = .idle ∧ s.host.inputs = .frame F c :: rest ∧ decode F = .ok i ∧
      exec i (s.accept c rest) = .next t) := by
  unfold step at h
  rcases s.fetch_cases with ⟨_, hi, hf⟩ | ⟨_, rest, _, _, hf⟩ | ⟨F, c, rest, hq, hi, hf⟩ | ⟨rest, _, _, hf⟩ | ⟨_, _, hf⟩
  · rw [hf] at h
    exact .inl ⟨hi, by simpa using h.symm⟩
  · rw [hf] at h
    exact .inr (.inl ⟨rest, by simpa using h.symm⟩)
  · simp only [hf] at h
    rcases hd : decode F with e | i
    · simp only [hd] at h
      exact .inr (.inr (.inl ⟨F, c, rest, e, hq, hi, hd, by simpa using h.symm⟩))
    · simp only [hd] at h
      exact .inr (.inr (.inr ⟨F, c, rest, i, hq, hi, hd, h⟩))
  · rw [hf] at h
    exact .inr (.inl ⟨rest, by simpa using h.symm⟩)
  · rw [hf] at h
    cases h

end Sys2Proof.Machine
end

