-- ==== Sys2Proof/Laws/PerInstr.lean ====
section
/-! SUPPORT. Per-instruction lemmas of the family EncodeLength: a frame the encoder writes has the length rule R44 expects of it. -/

namespace Sys2Proof.Laws.EncodeLength

/-- The encoder's frame of a well-formed instruction has rule R44's expected length, at most 258 bytes (rule R40). -/
def Statement (i : Instr) : Prop :=
  i.wellFormed = true → expectedLength (encode i) = some (encode i).length ∧ (encode i).length ≤ 258

theorem bcd2bin (b : Byte) : Statement (.bcd2bin b) := fun _ => ⟨rfl, by simp [encode]⟩

theorem bin2bcd (v : Byte) : Statement (.bin2bcd v) := fun _ => ⟨rfl, by simp [encode]⟩

theorem hrdec (b : Byte) : Statement (.hrdec b) := fun _ => ⟨rfl, by simp [encode]⟩

theorem hrenc (h : Byte) : Statement (.hrenc h) := fun _ => ⟨rfl, by simp [encode]⟩

theorem coord (d0 d1 d2 d3 d4 d5 : Byte) : Statement (.coord d0 d1 d2 d3 d4 d5) := fun _ => ⟨rfl, by simp [encode]⟩

theorem fix3 (b0 b1 b2 : Byte) : Statement (.fix3 b0 b1 b2) := fun _ => ⟨rfl, by simp [encode]⟩

theorem rdreg (reg len : Byte) : Statement (.rdreg reg len) := fun _ => ⟨rfl, by simp [encode]⟩

theorem wrreg (reg : Byte) (data : List Byte) : Statement (.wrreg reg data) := by
  intro h
  have h : data.length ≤ 255 := by simpa [Instr.wellFormed] using h
  have hm : data.length % 256 = data.length := Nat.mod_eq_of_lt (by omega)
  refine ⟨?_, by simp [encode]; omega⟩
  simp [encode, expectedLength, Machine.byteOf, hm]
  omega

theorem setmode (m : HourMode) : Statement (.setmode m) := fun _ => ⟨rfl, by simp [encode]⟩

theorem getst : Statement .getst := fun _ => ⟨rfl, by simp [encode]⟩

end Sys2Proof.Laws.EncodeLength
end

