-- ==== Sys2Proof/Laws/RegAccess.lean ====
section
/-! SUPPORT. Everything RDREG and WRREG can do, said once: the events issued and the three ways to end (spec 41_regaccess.md rules R69, R71; 60_exceptions.md rule R112). -/

namespace Sys2Proof.Machine

/-- `u` is `s` after a register operation issued `evs` and nothing else happened to the block. -/
structure Along (s u : State) (evs : List BusEvent) : Prop where
  hmode : u.hmode = s.hmode
  flags : u.flags = s.flags
  trace : u.trace = s.trace ++ evs
  log : u.downstream.log = s.downstream.log ++ evs
  inputs : u.host.inputs = s.host.inputs
  received : u.host.received = s.host.received
  cut : s.host.cut = none → u.host.cut = none

/-- How a register operation begun in `s` ends in `t` after the events `evs`. -/
inductive RegEnd (s t : State) (evs : List BusEvent) (ok : List Byte → Prop) (waits : Pseq → Prop) : Prop where
  /-- A reset or CANCEL cut it (rule R112). -/
  | cancelled (u : State) (along : Along s u evs) (due : u.host.cut = some 0) (eq : t = u.cancelled)
  /-- It returned a response. -/
  | responded (u : State) (along : Along s u evs) (r : List Byte) (legal : ok r) (eq : t = u.respond r)
  /-- It waits for ever on a transfer. -/
  | waiting (u : State) (along : Along s u evs) (stands : waits u.pseq) (eq : t = u)

theorem Along.refl (s : State) : Along s s [] :=
  ⟨rfl, rfl, (List.append_nil _).symm, (List.append_nil _).symm, rfl, rfl, id⟩

/-- A register operation's end, field by field: the log has grown by its events and no input was taken; it was reset,
or it answered once, or it waits; and only a pending cut resets it. -/
theorem RegEnd.fields {s t : State} {evs : List BusEvent} {ok : List Byte → Prop} {waits : Pseq → Prop}
    (h : RegEnd s t evs ok waits) :
    t.downstream.log = s.downstream.log ++ evs ∧ t.host.inputs = s.host.inputs ∧
    ((t.hmode = HMode.reset ∧ t.flags = 0x00#8 ∧ t.pseq = .idle ∧ t.trace = [] ∧
        t.host.received = s.host.received ∧ s.host.cut ≠ none) ∨
     (∃ r, ok r ∧ t.hmode = s.hmode ∧ t.flags = s.flags ∧ t.pseq = .idle ∧ t.trace = s.trace ++ evs ∧
        t.host.received = s.host.received ++ [r]) ∨
     (waits t.pseq ∧ t.hmode = s.hmode ∧ t.flags = s.flags ∧ t.trace = s.trace ++ evs ∧
        t.host.received = s.host.received)) := by
  rcases h with ⟨u, h, hc, rfl⟩ | ⟨u, h, r, hr, rfl⟩ | ⟨u, h, hq, rfl⟩
  · refine ⟨h.log, h.inputs, .inl ⟨rfl, rfl, rfl, rfl, h.received, fun hn => ?_⟩⟩
    rw [h.cut hn] at hc
    cases hc
  · exact ⟨h.log, h.inputs, .inr (.inl ⟨r, hr, h.hmode, h.flags, rfl, h.trace, by simp [h.received]⟩)⟩
  · exact ⟨h.log, h.inputs, .inr (.inr ⟨hq, h.hmode, h.flags, h.trace, h.received⟩)⟩

/-- Issuing one more event. -/
theorem Along.issue {s u : State} {evs : List BusEvent} (h : Along s u evs) (q : Pseq) (e : BusEvent) :
    Along s (u.issue q e) (evs ++ [e]) where
  hmode := h.hmode
  flags := h.flags
  trace := by simp [h.trace]
  log := by simp [h.log]
  inputs := h.inputs
  received := h.received
  cut hc := by simp [h.cut hc]

/-- Whatever the agent answers, its log is the one the issued event left. -/
theorem Along.answered {s u : State} {evs : List BusEvent} (h : Along s u evs) (e : BusEvent) (q : Pseq)
    {o : Option BusReply} {d : Downstream} (ha : (u.downstream.sees e).answer e = (o, d)) :
    Along s { u.issue q e with downstream := d } (evs ++ [e]) := by
  have hd : d.log = (u.downstream.sees e).log := by
    have := Downstream.answer_log e (u.downstream.sees e)
    rwa [ha] at this
  exact ⟨h.hmode, h.flags, by simp [h.trace], by simp [hd, h.log], h.inputs, h.received, (h.issue q e).cut⟩

/-- A transfer followed by `k`: cut, waiting, or `k` on the answer. -/
theorem Along.transfer {s u : State} {evs : List BusEvent} (h : Along s u evs) (q : Pseq) (e : BusEvent)
    (k : BusReply → State → State) (P : State → Prop)
    (hcut : ∀ v, Along s v (evs ++ [e]) → v.host.cut = some 0 → P v.cancelled)
    (hwait : ∀ v, Along s v (evs ++ [e]) → v.pseq = q → P v)
    (hgo : ∀ r d v, (u.downstream.sees e).answer e = (some r, d) → Along s v (evs ++ [e]) → P (k r v)) :
    P ((u.transfer q e).finish k) := by
  rcases u.transfer_cases q e with ⟨hc, ht⟩ | ⟨r, d, -, ha, ht⟩ | ⟨d, -, ha, ht⟩
  · rw [ht]
    exact hcut _ (h.issue q e) hc
  · rw [ht]
    exact hgo r d _ ha (h.answered e q ha)
  · rw [ht]
    exact hwait _ (h.answered e q ha) rfl

/-- A settle followed by `k`: cut, or `k`. -/
theorem Along.settle {s u : State} {evs : List BusEvent} (h : Along s u evs) (q : Pseq)
    (k : Unit → State → State) (P : State → Prop)
    (hcut : ∀ v, Along s v (evs ++ [.settle]) → v.host.cut = some 0 → P v.cancelled)
    (hgo : ∀ v, Along s v (evs ++ [.settle]) → P (k () v)) :
    P ((u.settle q).finish k) := by
  rcases u.settle_cases q with ⟨hc, ht⟩ | ⟨-, ht⟩
  · rw [ht]
    exact hcut _ (h.issue q .settle) hc
  · rw [ht]
    exact hgo _ (h.issue q .settle)

/-- The responses RDREG can return after the events `evs` (rule R69): any but ST_FAIL ends in the read. -/
def rdregResponse (len : Byte) (evs : List BusEvent) (r : List Byte) : Prop :=
  r = [stFail] ∨ ((∃ earlier reg, evs = earlier ++ [.read reg len]) ∧
    ((r = [stShort] ∧ len.toNat ≠ 0) ∨ ∃ data, r = stOk :: data ∧ data.length = len.toNat))

/-- The responses WRREG can return after the events `evs` (rule R71): ST_OK comes after the settle. -/
def wrregResponse (reg : Byte) (data : List Byte) (evs : List BusEvent) (r : List Byte) : Prop :=
  r = [stFail] ∨ (r = [stOk] ∧ evs = [.write reg data, .settle])

/-- RDREG's read, whatever went before it. -/
theorem Along.readRegisters {s u : State} {evs : List BusEvent} (h : Along s u evs) (reg len : Byte)
    (hl : len.toNat ≠ 0) :
    RegEnd s (u.readRegisters reg len) (evs ++ [.read reg len]) (rdregResponse len (evs ++ [.read reg len])) (· = .read) := by
  refine h.transfer .read _ _ (fun t => RegEnd s t _ _ _) (fun v hv hc => .cancelled v hv hc rfl)
    (fun v hv hq => .waiting v hv hq rfl) fun r d v ha hv => ?_
  have hle := Downstream.answer_read_length ha
  split
  · exact .responded v hv _ (.inl rfl) rfl
  · split
    · exact .responded v hv _ (.inr ⟨⟨_, _, rfl⟩, .inl ⟨rfl, hl⟩⟩) rfl
    · exact .responded v hv _ (.inr ⟨⟨_, _, rfl⟩, .inr ⟨_, rfl, by omega⟩⟩) rfl

/-- The event lists RDREG can leave (rules R69, R112). -/
def rdregEvents (reg len : Byte) (evs : List BusEvent) : Prop :=
  evs = [] ∨ (len.toNat ≠ 0 ∧
    ((primedRange reg = false ∧ evs = [.read reg len]) ∨
     (primedRange reg = true ∧
      (evs = [.write Config.selectReg [reg, len]] ∨ evs = [.write Config.selectReg [reg, len], .settle] ∨
       evs = [.write Config.selectReg [reg, len], .settle, .read reg len]))))

/-- Everything RDREG can do. -/
theorem execRdreg_cases (reg len : Byte) (s : State) :
    ∃ t evs, execRdreg reg len s = .next t ∧ rdregEvents reg len evs ∧
      RegEnd s t evs (rdregResponse len evs) (fun q => q = .primeWr ∨ q = .read) := by
  have weaken : ∀ {t evs}, RegEnd s t evs (rdregResponse len evs) (· = .read) →
      RegEnd s t evs (rdregResponse len evs) (fun q => q = .primeWr ∨ q = .read) := by
    rintro t evs (⟨u, h, hc, e⟩ | ⟨u, h, r, hr, e⟩ | ⟨u, h, hq, e⟩)
    · exact .cancelled u h hc e
    · exact .responded u h r hr e
    · exact .waiting u h (.inr hq) e
  unfold execRdreg
  rcases s.cutPoint_cases with ⟨hc, hp⟩ | ⟨-, hp⟩
  · exact ⟨_, [], by rw [hp]; rfl, .inl rfl, .cancelled s (.refl s) hc rfl⟩
  · rw [hp, Phase.finish_go]
    by_cases hl : len.toNat = 0
    · rw [if_pos hl]
      exact ⟨_, [], rfl, .inl rfl, .responded s (.refl s) _ (.inl rfl) rfl⟩
    rw [if_neg hl]
    cases hpr : primedRange reg with
    | false =>
      exact ⟨_, _, rfl, .inr ⟨hl, .inl ⟨hpr, rfl⟩⟩, weaken ((Along.refl s).readRegisters reg len hl)⟩
    | true =>
      simp only [if_true]
      suffices h : ∃ evs, rdregEvents reg len evs ∧ RegEnd s (s.readPrimed reg len) evs (rdregResponse len evs)
          (fun q => q = .primeWr ∨ q = .read) by
        obtain ⟨evs, h1, h2⟩ := h
        exact ⟨_, evs, rfl, h1, h2⟩
      refine (Along.refl s).transfer .primeWr _ _
        (fun t => ∃ evs, rdregEvents reg len evs ∧ RegEnd s t evs (rdregResponse len evs) (fun q => q = .primeWr ∨ q = .read))
        (fun v hv hc => ⟨_, .inr ⟨hl, .inr ⟨hpr, .inl rfl⟩⟩, .cancelled v hv hc rfl⟩)
        (fun v hv hq => ⟨_, .inr ⟨hl, .inr ⟨hpr, .inl rfl⟩⟩, .waiting v hv (.inl hq) rfl⟩)
        fun w d v _ hv => ?_
      split
      · exact ⟨_, .inr ⟨hl, .inr ⟨hpr, .inl rfl⟩⟩, .responded v hv _ (.inl rfl) rfl⟩
      · exact hv.settle .primeSettle _
          (fun t => ∃ evs, rdregEvents reg len evs ∧ RegEnd s t evs (rdregResponse len evs) (fun q => q = .primeWr ∨ q = .read))
          (fun x hx hc => ⟨_, .inr ⟨hl, .inr ⟨hpr, .inr (.inl rfl)⟩⟩, .cancelled x hx hc rfl⟩)
          fun x hx => ⟨_, .inr ⟨hl, .inr ⟨hpr, .inr (.inr rfl)⟩⟩, weaken (hx.readRegisters reg len hl)⟩

/-- The event lists WRREG can leave (rules R71, R112). -/
def wrregEvents (reg : Byte) (data : List Byte) (evs : List BusEvent) : Prop :=
  evs = [] ∨ (data.length ≠ 0 ∧ (evs = [.write reg data] ∨ evs = [.write reg data, .settle]))

/-- Everything WRREG can do. -/
theorem execWrreg_cases (reg : Byte) (data : List Byte) (s : State) :
    ∃ t evs, execWrreg reg data s = .next t ∧ wrregEvents reg data evs ∧
      RegEnd s t evs (wrregResponse reg data evs) (· = .write) := by
  unfold execWrreg
  rcases s.cutPoint_cases with ⟨hc, hp⟩ | ⟨-, hp⟩
  · exact ⟨_, [], by rw [hp]; rfl, .inl rfl, .cancelled s (.refl s) hc rfl⟩
  · rw [hp, Phase.finish_go]
    by_cases hl : data.length = 0
    · rw [if_pos hl]
      exact ⟨_, [], rfl, .inl rfl, .responded s (.refl s) _ (.inl rfl) rfl⟩
    rw [if_neg hl]
    suffices h : ∃ evs, wrregEvents reg data evs ∧
        RegEnd s (s.writeRegisters reg data) evs (wrregResponse reg data evs) (· = .write) by
      obtain ⟨evs, h1, h2⟩ := h
      exact ⟨_, evs, rfl, h1, h2⟩
    refine (Along.refl s).transfer .write _ _
      (fun t => ∃ evs, wrregEvents reg data evs ∧ RegEnd s t evs (wrregResponse reg data evs) (· = .write))
      (fun v hv hc => ⟨_, .inr ⟨hl, .inl rfl⟩, .cancelled v hv hc rfl⟩)
      (fun v hv hq => ⟨_, .inr ⟨hl, .inl rfl⟩, .waiting v hv hq rfl⟩)
      fun w d v _ hv => ?_
    split
    · exact ⟨_, .inr ⟨hl, .inl rfl⟩, .responded v hv _ (.inl rfl) rfl⟩
    · exact hv.settle .writeSettle _
        (fun t => ∃ evs, wrregEvents reg data evs ∧ RegEnd s t evs (wrregResponse reg data evs) (· = .write))
        (fun x hx hc => ⟨_, .inr ⟨hl, .inr rfl⟩, .cancelled x hx hc rfl⟩)
        fun x hx => ⟨_, .inr ⟨hl, .inr rfl⟩, .responded x hx _ (.inr ⟨rfl, rfl⟩) rfl⟩

end Sys2Proof.Machine
end

