-- ==== Sys2Proof/Machine/AddressMap.lean ====
section
/-! DEFINITION. The device's address map as far as the source gives it (spec 20_memory.md rule R21); the block neither checks nor enforces it. -/

namespace Sys2Proof.Machine

/-- The named ranges of rule R21. -/
inductive Region where
  | gnss
  | calibration
  | scratch
  | clock
  | primedRead
  | identity
  | select
  deriving DecidableEq, Repr

/-- Whether an address lies in a range of rule R21. -/
def Region.covers (a : Byte) : Region → Bool
  | .gnss => decide (a.toNat ≤ 0x23)
  | .calibration => decide (0x2A ≤ a.toNat) && decide (a.toNat ≤ 0x2F)
  | .scratch => decide (0x2C ≤ a.toNat) && decide (a.toNat ≤ 0x71) && !(decide (0x30 ≤ a.toNat) && decide (a.toNat ≤ 0x4D))
  | .clock => decide (0x30 ≤ a.toNat) && decide (a.toNat ≤ 0x4D)
  | .primedRead => decide (0x30 ≤ a.toNat) && decide (a.toNat ≤ 0x79)
  | .identity => decide (0xAA ≤ a.toNat) && decide (a.toNat ≤ 0xAF)
  | .select => a == Config.selectReg

/-- Every range an address lies in; the ranges overlap, and the overlap at 0x2C to 0x2F is not resolved
(90_conflicts.md C4), so both rows are kept. -/
def regionsOf (a : Byte) : List Region :=
  [Region.gnss, .calibration, .scratch, .clock, .primedRead, .identity, .select].filter (Region.covers a)

/-- The chip's identity constants, each a 16-bit number at 0xAA to 0xAF in an order the source does not give (rules R21, R124). -/
def chipPid : Nat := 0x444F
/-- VID (rule R21). -/
def chipVid : Nat := 0x3343
/-- VERSION (rule R21). -/
def chipVersion : Nat := 0x0100

end Sys2Proof.Machine
end

