-- ==== Sys2Proof/Machine/Transport.lean ====
section
/-! DEFINITION. How the UART transport carries the port's events (spec 20_memory.md rule R28); no operation depends on it. -/

namespace Sys2Proof.Machine

/-- The bytes the UART transport sends for an event (rule R28): the write frame `[0xCC, addr, |data|] ++ data`, the
read request `[0xBB, addr, n]`; Settle sends nothing. -/
def uartFrame : BusEvent → List Byte
  | .write addr data => 0xCC#8 :: addr :: byteOf data.length :: data
  | .settle => []
  | .read addr n => [0xBB#8, addr, n]

end Sys2Proof.Machine
end

