-- ==== Sys2Proof/Tests/Slice0.lean ====
section
/-! SUPPORT. Tests of the model against the spec's own vectors (95_test_vectors.md), and a witness for each statement's hypotheses. -/

namespace Sys2Proof.Tests

open Machine Safety

/-! ### Helpers -/

/-- The reset state with a mode held. -/
def held (m : HourMode) : State := { State.reset with hmode := ⟨true, m⟩ }

/-- The idle block, about to be handed one frame. -/
def ready (F : List Byte) : State := { State.reset with host := ⟨[.frame F none], none, []⟩ }

/-- The reset state with known downstream answers. -/
def answering (l : List BusAnswer) : State := { State.reset with downstream := ⟨l, [], []⟩ }

/-- The reset state with known downstream answers and a cut pending. -/
def cutting (k : Nat) (l : List BusAnswer) : State :=
  { State.reset with host := ⟨[], some k, []⟩, downstream := ⟨l, [], []⟩ }

/-- A block left waiting on a read. -/
def waiting (l : List HostInput) : State := { State.reset with pseq := .read, host := ⟨l, none, []⟩ }

/-- A status answer, and an answer with data. -/
def gives (st : Nat) (data : List Byte) : BusAnswer := .reply ⟨st, data⟩

/-- The state an outcome leaves, if it is a next state. -/
def after : Host.Outcome State Fault Refusal → Option State
  | .next t => some t
  | .fault _ => none
  | .refused _ => none

/-- The responses returned by an instruction run on a state. -/
def resps (i : Instr) (s : State) : Option (List (List Byte)) := (after (exec i s)).map (·.host.received)

/-- FLAGS after an instruction run on a state. -/
def flagsAfter (i : Instr) (s : State) : Option Byte := (after (exec i s)).map (·.flags)

/-- The trace an instruction leaves. -/
def traceOf (i : Instr) (s : State) : Option (List BusEvent) := (after (exec i s)).map (·.trace)

/-! ### Well-formedness -/

/-- The one check of `wellFormed`: 256 data bytes do not fit the length byte (rule R42). -/
theorem test_wellFormed_refuses_long_wrreg : (Instr.wrreg 0x50#8 (List.replicate 256 0#8)).wellFormed = false := by
  rw [Instr.wellFormed, List.length_replicate]
  decide

/-! ### Decoding: frames from rule R50 and 95_test_vectors.md -/

theorem test_decode_bcd2bin : (decode [0x01#8, 0x59#8]).toOption = some (.bcd2bin 0x59#8) := by decide
theorem test_decode_bin2bcd : (decode [0x02#8, 0x2D#8]).toOption = some (.bin2bcd 45#8) := by decide
theorem test_decode_hrdec : (decode [0x03#8, 0xA3#8]).toOption = some (.hrdec 0xA3#8) := by decide
theorem test_decode_hrenc : (decode [0x04#8, 0x17#8]).toOption = some (.hrenc 23#8) := by decide
theorem test_decode_coord : (decode [0x10#8, 0x25#8, 0x2E#8, 0x00#8, 0x30#8, 0x39#8, 0x4E#8]).toOption
    = some (.coord 37#8 46#8 0x00#8 0x30#8 0x39#8 0x4E#8) := by decide
theorem test_decode_fix3 : (decode [0x11#8, 0x01#8, 0x2C#8, 0x32#8]).toOption = some (.fix3 1#8 0x2C#8 0x32#8) := by decide
theorem test_decode_rdreg : (decode [0x20#8, 0x30#8, 0x07#8]).toOption = some (.rdreg 0x30#8 7#8) := by decide
theorem test_decode_wrreg : (decode [0x21#8, 0x50#8, 0x02#8, 0xA5#8, 0x5A#8]).toOption
    = some (.wrreg 0x50#8 [0xA5#8, 0x5A#8]) := by decide
theorem test_decode_setmode : (decode [0x30#8, 0x01#8]).toOption = some (.setmode .hour24) := by decide
theorem test_decode_getst : (decode [0x31#8]).toOption = some .getst := by decide

/-- Illegal frames of 95_test_vectors.md sections 2.1, 2.5 to 2.8: one for each clause of rule R46, and reserved opcodes. -/
theorem test_decode_refuses :
    ([[], [0x00#8], [0x05#8, 0x00#8], [0x12#8, 0#8, 0#8, 0#8], [0x22#8, 0x30#8, 1#8], [0x32#8], [0xBB#8, 0x30#8, 7#8],
      [0xFF#8], [0x31#8, 0#8], [0x01#8], [0x01#8, 0x12#8, 0#8], [0x11#8, 1#8, 0x2C#8],
      [0x10#8, 0x25#8, 0x2E#8, 0#8, 0x30#8, 0x39#8], [0x20#8, 0x30#8], [0x20#8, 0x30#8, 7#8, 0#8], [0x21#8, 0x50#8],
      [0x21#8, 0x50#8, 2#8, 0xA5#8], [0x21#8, 0x50#8, 1#8, 0xA5#8, 0x5A#8], [0x30#8], [0x30#8, 2#8]]
      : List (List Byte)).all (fun F => (decode F).toOption.isNone) = true := by decide

/-- opcode_table.json's `match` values, operand bits zero. -/
theorem test_decodeTableWord_rows :
    [decodeTableWord 16 0x0100, decodeTableWord 16 0x0200, decodeTableWord 16 0x0300, decodeTableWord 16 0x0400,
      decodeTableWord 56 0x10000000000000, decodeTableWord 32 0x11000000, decodeTableWord 24 0x200000,
      decodeTableWord 24 0x210000, decodeTableWord 16 0x3000, decodeTableWord 8 0x31] =
    [some (.bcd2bin 0#8), some (.bin2bcd 0#8), some (.hrdec 0#8), some (.hrenc 0#8),
      some (.coord 0#8 0#8 0#8 0#8 0#8 0#8), some (.fix3 0#8 0#8 0#8), some (.rdreg 0#8 0#8), some (.wrreg 0#8 []),
      some (.setmode .hour12), some .getst] := by decide

/-- A WRREG header whose length byte asks for two data bytes gets zeros for them. -/
theorem test_decodeTableWord_wrreg_data : decodeTableWord 24 0x215002 = some (.wrreg 0x50#8 [0#8, 0#8]) := by decide

/-! ### The BCD unit: sections 2.1 to 2.4 -/

theorem test_bcd2bin_59 : resps (.bcd2bin 0x59#8) .reset = some [[0x00#8, 0x3B#8]] := by decide
theorem test_bcd2bin_ff : resps (.bcd2bin 0xFF#8) .reset = some [[0x00#8, 0xA5#8]] ∧
    flagsAfter (.bcd2bin 0xFF#8) .reset = some 0x01#8 := by decide
theorem test_bin2bcd_45 : resps (.bin2bcd 45#8) .reset = some [[0x00#8, 0x45#8]] := by decide
theorem test_bin2bcd_255 : resps (.bin2bcd 255#8) .reset = some [[0x00#8, 0x95#8]] ∧
    flagsAfter (.bin2bcd 255#8) .reset = some 0x02#8 := by decide
theorem test_hrdec_hour24 : resps (.hrdec 0xFF#8) (held .hour24) = some [[0x00#8, 0x55#8, 0x55#8, 0x80#8]] ∧
    flagsAfter (.hrdec 0xFF#8) (held .hour24) = some 0x03#8 := by decide
theorem test_hrdec_hour12 : resps (.hrdec 0xB1#8) (held .hour12) = some [[0x00#8, 0x0B#8, 0x17#8, 0x81#8]] ∧
    resps (.hrdec 0x52#8) (held .hour12) = some [[0x00#8, 0x0C#8, 0x00#8, 0x00#8]] ∧
    flagsAfter (.hrdec 0x1A#8) (held .hour12) = some 0x03#8 := by decide
theorem test_hrenc_hour24 : resps (.hrenc 23#8) (held .hour24) = some [[0x00#8, 0xA3#8]] ∧
    resps (.hrenc 99#8) (held .hour24) = some [[0x00#8, 0x99#8]] := by decide
theorem test_hrenc_hour12 : resps (.hrenc 0#8) (held .hour12) = some [[0x00#8, 0x12#8]] ∧
    resps (.hrenc 12#8) (held .hour12) = some [[0x00#8, 0x32#8]] ∧
    resps (.hrenc 255#8) (held .hour12) = some [[0x00#8, 0xA3#8]] := by decide

/-! ### The fixed-point unit: section 2.5 -/

/-- The source's example S5. -/
theorem test_coord_example : resps (.coord 0x25#8 0x2E#8 0x00#8 0x30#8 0x39#8 0x4E#8) .reset =
    some [[0x00#8, 0x16#8, 0x54#8, 0x21#8, 0x79#8, 0x0D#8, 0x81#8, 0xD4#8, 0x79#8, 0x4E#8]] := by decide
theorem test_coord_max : resps (.coord 0xFF#8 0xFF#8 0xFF#8 0xFF#8 0xFF#8 0xFF#8) .reset =
      some [[0x00#8, 0x9A#8, 0x83#8, 0x02#8, 0xDF#8, 0x5D#8, 0xB7#8, 0x0B#8, 0xDF#8, 0xFF#8]] ∧
    flagsAfter (.coord 0xB3#8 0x3B#8 0x01#8 0x86#8 0xA0#8 0x45#8) .reset = some 0x02#8 ∧
    flagsAfter (.coord 0xB3#8 0x3B#8 0x01#8 0x86#8 0x9F#8 0x57#8) .reset = some 0x00#8 := by decide
theorem test_fix3_example : resps (.fix3 0x01#8 0x2C#8 0x32#8) .reset = some [[0x00#8, 0x00#8, 0x75#8, 0x62#8]] := by decide
theorem test_fix3_max : resps (.fix3 0xFF#8 0xFF#8 0xFF#8) .reset = some [[0x00#8, 0x32#8, 0x00#8, 0x9B#8]] ∧
    flagsAfter (.fix3 0xFF#8 0xFF#8 0xFF#8) .reset = some 0x02#8 := by decide

/-! ### Register access: sections 2.6, 2.7, 2.9 -/

/-- The time block read of program P1, frame 2: primed, all seven bytes. -/
theorem test_rdreg_primed :
    resps (.rdreg 0x30#8 7#8) (answering [gives 0 [], gives 0 [0x56#8, 0x34#8, 0x92#8, 0x03#8, 0x25#8, 0x12#8, 0x24#8]]) =
      some [[0x00#8, 0x56#8, 0x34#8, 0x92#8, 0x03#8, 0x25#8, 0x12#8, 0x24#8]] ∧
    traceOf (.rdreg 0x30#8 7#8) (answering [gives 0 [], gives 0 [0x56#8]]) =
      some [.write Config.selectReg [0x30#8, 0x07#8], .settle, .read 0x30#8 7#8] ∧
    traceOf (.rdreg 0x2F#8 4#8) (answering [gives 0 []]) = some [.read 0x2F#8 4#8] := ⟨rfl, rfl, rfl⟩

/-- Failed priming, failed read, short read, failed read that is also short, zero length. -/
theorem test_rdreg_failures :
    resps (.rdreg 0x30#8 7#8) (answering [gives 1 []]) = some [[0x01#8]] ∧
    traceOf (.rdreg 0x30#8 7#8) (answering [gives 1 []]) = some [.write Config.selectReg [0x30#8, 0x07#8]] ∧
    resps (.rdreg 0x30#8 7#8) (answering [gives 0 [], gives 0 [0x56#8, 0x34#8, 0x92#8]]) = some [[0x04#8]] ∧
    resps (.rdreg 0x30#8 7#8) (answering [gives 0 [], gives 1 [0x56#8, 0x34#8]]) = some [[0x01#8]] ∧
    resps (.rdreg 0x30#8 0#8) .reset = some [[0x01#8]] := ⟨rfl, rfl, rfl, rfl, rfl⟩

/-- Section 2.7: a write in the primed range is not primed; a failed write has no settle; zero length. -/
theorem test_wrreg :
    traceOf (.wrreg 0x50#8 [0xA5#8]) (answering [gives 0 []]) = some [.write 0x50#8 [0xA5#8], .settle] ∧
    traceOf (.wrreg 0x50#8 [0xA5#8]) (answering [gives 1 []]) = some [.write 0x50#8 [0xA5#8]] ∧
    resps (.wrreg 0x50#8 [0xA5#8]) (answering [gives 1 []]) = some [[0x01#8]] ∧
    resps (.wrreg 0x50#8 []) .reset = some [[0x01#8]] := by decide

/-- Section 2.9: CANCEL after the priming write leaves `W` downstream, no response, and the reset state. -/
theorem test_rdreg_cut :
    (after (exec (.rdreg 0x30#8 7#8) (cutting 1 []))).map (·.downstream.log) =
      some [.write Config.selectReg [0x30#8, 0x07#8]] ∧
    (after (exec (.rdreg 0x30#8 7#8) (cutting 1 []))).map (·.host.received) = some [] := ⟨rfl, rfl⟩

/-! ### Mode, status, illegal frames, the step: section 2.8 -/

theorem test_setmode : (after (exec (.setmode .hour24) .reset)).map (·.hmode) = some ⟨true, .hour24⟩ := by decide
theorem test_getst : resps .getst .reset = some [[0x00#8, 0x00#8, 0xFF#8]] ∧
    resps .getst { held .hour12 with flags := 0x01#8 } = some [[0x00#8, 0x01#8, 0x00#8]] := by decide
theorem test_step_illegal : (after (step (ready [0x05#8, 0x00#8]))).map (·.host.received) = some [[0x02#8]] := by decide
theorem test_step_fetch_word :
    (after (step (State.reset.withFetchWord 16 0x0159))).map (·.host.received) = some [[0x00#8, 0x3B#8]] := by decide

/-! ### Context of the address space (rules R21, R28) -/

/-- The priming write over UART is the frame `[0xCC, SELECT_REG, 0x02, reg, len]` (rule R28). -/
theorem test_uart_priming_frame (reg len : Byte) :
    uartFrame (.write Config.selectReg [reg, len]) = [0xCC#8, Config.selectReg, 0x02#8, reg, len] := rfl

/-- The unresolved overlap of calibration control and scratch at 0x2C (rule R21). -/
theorem test_regions_overlap : Region.covers 0x2C#8 .calibration = true ∧ Region.covers 0x2C#8 .scratch = true ∧
    Region.covers 0x30#8 .scratch = false := by decide

/-! ### Witnesses: a state and operands that meet each statement's hypotheses -/

theorem witness_DecodeUndoesEncode : (Instr.wrreg 0xFF#8 (List.replicate 255 0#8)).wellFormed = true := by
  rw [Instr.wellFormed, List.length_replicate]
  decide
theorem witness_EncodeUndoesDecode : decode [0x21#8, 0xFF#8, 0x01#8, 0xFF#8] = .ok (.wrreg 0xFF#8 [0xFF#8]) := rfl
theorem witness_StepRunsTheDecodedFrame : (ready [0x31#8]).pseq = .idle ∧
    (ready [0x31#8]).host.inputs = .frame [0x31#8] none :: [] ∧ decode [0x31#8] = .ok .getst := ⟨rfl, rfl, rfl⟩
theorem witness_StIllegal_refused : (ready [0x30#8, 0x02#8]).pseq = .idle ∧
    (ready [0x30#8, 0x02#8]).host.inputs = .frame [0x30#8, 0x02#8] none :: [] ∧ IllegalFrame [0x30#8, 0x02#8] :=
  ⟨rfl, rfl, .inr (.inr (.inr (.inr (.inr (.inr (.inr (.inr (.inr ⟨_, _, rfl, rfl, by decide⟩))))))))⟩
/-- One illegal frame for each other clause of rule R46, at the edge of its range. -/
theorem witness_IllegalFrame_clauses :
    (∀ F ∈ ([[], [0x05#8], [0x31#8, 0#8], [0x04#8], [0x11#8, 0#8, 0#8], [0x10#8, 0#8, 0#8, 0#8, 0#8, 0#8],
      [0x20#8, 0#8], [0x21#8, 0#8]] : List (List Byte)), IllegalFrame F) ∧ IllegalFrame [0x21#8, 0#8, 1#8] := by
  constructor
  · simp [IllegalFrame]
  · exact .inr (.inr (.inr (.inr (.inr (.inr (.inr (.inr (.inl ⟨_, _, _, _, rfl, rfl, by decide⟩))))))))
theorem witness_StIllegal_returned : ∃ t, step (ready []) = .next t ∧ Returned (ready []) t [0x02#8] := ⟨_, rfl, rfl⟩
theorem witness_IdleBlockWaits : State.reset.pseq = .idle ∧ State.reset.host.inputs = [] := ⟨rfl, rfl⟩
theorem witness_ResetInput : ({ held .hour24 with host := ⟨[.signal .cancel], none, []⟩ } : State).pseq = .idle ∧
    ({ held .hour24 with host := ⟨[.signal .cancel], none, []⟩ } : State).host.inputs = .signal .cancel :: [] :=
  ⟨rfl, rfl⟩

/-- For OtherLengthsIllegal of each opcode: one operand byte too few, and one too many. -/
theorem witness_OtherLengthsIllegal_short : ([] : List Byte).length ≠ 1 ∧ ([0#8] : List Byte).length ≠ 2 ∧
    ([0#8, 0#8] : List Byte).length ≠ 3 ∧ ([0#8, 0#8, 0#8, 0#8, 0#8] : List Byte).length ≠ 6 ∧
    (ready [0x01#8]).pseq = .idle ∧ (ready [0x01#8]).host.inputs = .frame (0x01#8 :: []) none :: [] :=
  ⟨by decide, by decide, by decide, by decide, rfl, rfl⟩
theorem witness_OtherLengthsIllegal_long : ([0#8] : List Byte).length ≠ 0 ∧ (ready [0x31#8, 0#8]).pseq = .idle ∧
    (ready [0x31#8, 0#8]).host.inputs = .frame (0x31#8 :: [0#8]) none :: [] := ⟨by decide, rfl, rfl⟩

theorem witness_BcdRoundTrip_domain : (99#8 : Byte).toNat ≤ 99 := by decide
theorem witness_BcdRoundTrip_valid : (0x99#8 : Byte).toNat / 16 ≤ 9 ∧ (0x99#8 : Byte).toNat % 16 ≤ 9 := by decide
theorem witness_BcdRoundTrip_reach : ∃ t u,
    exec (.bin2bcd 159#8) .reset = .next t ∧ Returned .reset t [0x00#8, 0xF9#8] ∧
    exec (.bcd2bin 0xF9#8) t = .next u ∧ Returned t u [0x00#8, 159#8] := ⟨_, _, rfl, rfl, rfl, rfl⟩
theorem witness_BcdRoundTrip_outside : ∃ t u,
    exec (.bin2bcd 160#8) .reset = .next t ∧ Returned .reset t [0x00#8, 0x00#8] ∧
    exec (.bcd2bin 0x00#8) t = .next u ∧ Returned t u [0x00#8, 0x00#8] := ⟨_, _, rfl, rfl, rfl, rfl⟩
theorem witness_BcdRoundTrip_converse_invalid : ∃ t u,
    exec (.bcd2bin 0x0A#8) .reset = .next t ∧ Returned .reset t [0x00#8, 10#8] ∧
    exec (.bin2bcd 10#8) t = .next u ∧ Returned t u [0x00#8, 0x10#8] := ⟨_, _, rfl, rfl, rfl, rfl⟩
theorem witness_BcdConverse : ∃ t u,
    exec (.bcd2bin 0xA0#8) .reset = .next t ∧ Returned .reset t [0x00#8, 100#8] ∧
    exec (.bin2bcd 100#8) t = .next u ∧ Returned t u [0x00#8, 0xA0#8] := ⟨_, _, rfl, rfl, rfl, rfl⟩
theorem witness_Hour_unset : State.reset.hmode.v = false := rfl
theorem witness_Hour_hour24 : (held .hour24).hmode.v = true ∧ (held .hour24).hmode.m = .hour24 := ⟨rfl, rfl⟩
theorem witness_Hour_hour12 : (held .hour12).hmode.v = true ∧ (held .hour12).hmode.m = .hour12 := ⟨rfl, rfl⟩
theorem witness_StNomode_returned : ∃ t, exec (.hrenc 5#8) .reset = .next t ∧ Returned .reset t [0x03#8] := ⟨_, rfl, rfl⟩
theorem witness_HourLaws : (23#8 : Byte).toNat ≤ 23 ∧ (held .hour24).hmode = ⟨true, .hour24⟩ ∧
    (held .hour12).hmode = ⟨true, .hour12⟩ ∧
    exec (.hrenc 23#8) (held .hour24) = .next (answered { held .hour24 with flags := 0x00#8 } [0x00#8, 0xA3#8]) :=
  ⟨by decide, rfl, rfl, rfl⟩
theorem witness_Hrdec : (17 : Nat) = (0xB1#8 : Byte).toNat % 32 ∧ (11 : Nat) = 10 * (17 / 16) + 17 % 16 ∧
    (1 : Nat) = (0xB1#8 : Byte).toNat / 32 % 2 ∧ (49 : Nat) = (0xB1#8 : Byte).toNat % 128 ∧
    (31 : Nat) = 10 * (49 / 16) + 49 % 16 := by decide
theorem witness_Coord : (12345 : Nat) = (0x00#8 : Byte).toNat * 65536 + (0x30#8 : Byte).toNat * 256 + (0x39#8 : Byte).toNat ∧
    (374612345 : Nat) = (37#8 : Byte).toNat * 10000000 + (46#8 : Byte).toNat * 100000 + 12345 ∧
    (226612345 : Nat) = (37#8 : Byte).toNat * 6000000 + (46#8 : Byte).toNat * 100000 + 12345 := by decide
theorem witness_Fix3 : (30050 : Nat) = ((1#8 : Byte).toNat % 128 * 256 + (0x2C#8 : Byte).toNat) * 100 + (50#8 : Byte).toNat := by
  decide
theorem witness_CoordResultsAreExactRationals : ∃ t,
    exec (.coord 37#8 46#8 0x00#8 0x30#8 0x39#8 0x4E#8) .reset = .next t ∧
    Returned .reset t [0x00#8, 0x16#8, 0x54#8, 0x21#8, 0x79#8, 0x0D#8, 0x81#8, 0xD4#8, 0x79#8, 0x4E#8] := ⟨_, rfl, rfl⟩
theorem witness_SetmodeOperand : (2#8 : Byte).toNat > 1 ∧ (ready [0x30#8, 2#8]).pseq = .idle ∧
    (ready [0x30#8, 2#8]).host.inputs = .frame [0x30#8, 2#8] none :: [] := ⟨by decide, rfl, rfl⟩

theorem witness_Rdreg_zero : (0#8 : Byte).toNat = 0 ∧ noCutWithin 0 (cutting 1 []) = true := by decide
theorem witness_Rdreg_unprimed_below : (255#8 : Byte).toNat ≠ 0 ∧ ¬ (0x30 ≤ (0x2F#8 : Byte).toNat ∧ (0x2F#8 : Byte).toNat ≤ 0x79) ∧
    noCutWithin 1 (answering [gives 0 [1#8]]) = true ∧
    ∃ r d, ((answering [gives 0 [1#8]]).downstream.sees (.read 0x2F#8 255#8)).answer (.read 0x2F#8 255#8) = (some r, d) :=
  ⟨by decide, by decide, rfl, _, _, rfl⟩
theorem witness_Rdreg_unprimed_above : (1#8 : Byte).toNat ≠ 0 ∧ ¬ (0x30 ≤ (0x7A#8 : Byte).toNat ∧ (0x7A#8 : Byte).toNat ≤ 0x79) ∧
    noCutWithin 1 State.reset = true ∧
    ∃ r d, (State.reset.downstream.sees (.read 0x7A#8 1#8)).answer (.read 0x7A#8 1#8) = (some r, d) :=
  ⟨by decide, by decide, rfl, _, _, rfl⟩
theorem witness_Rdreg_primed_write_fails : 0x30 ≤ (0x30#8 : Byte).toNat ∧ (0x30#8 : Byte).toNat ≤ 0x79 ∧
    ∃ w d, ((answering [gives 1 []]).downstream.sees (.write Config.selectReg [0x30#8, 1#8])).answer
      (.write Config.selectReg [0x30#8, 1#8]) = (some w, d) ∧ w.st ≠ 0 ∧ noCutWithin 1 (answering [gives 1 []]) = true :=
  ⟨by decide, by decide, _, _, rfl, by decide, rfl⟩
theorem witness_Rdreg_primed_goes_on : 0x30 ≤ (0x79#8 : Byte).toNat ∧ (0x79#8 : Byte).toNat ≤ 0x79 ∧
    ∃ w d1 r d2, ((answering [gives 0 [], gives 0 [7#8]]).downstream.sees (.write Config.selectReg [0x79#8, 1#8])).answer
      (.write Config.selectReg [0x79#8, 1#8]) = (some w, d1) ∧ w.st = 0 ∧
      noCutWithin 3 (answering [gives 0 [], gives 0 [7#8]]) = true ∧
      ((d1.sees .settle).sees (.read 0x79#8 1#8)).answer (.read 0x79#8 1#8) = (some r, d2) :=
  ⟨by decide, by decide, _, _, _, _, rfl, rfl, rfl, rfl⟩
theorem witness_Wrreg_decodes : ([0xA5#8] : List Byte).length = (1#8 : Byte).toNat := rfl
theorem witness_Wrreg_illegal : (([0x50#8] : List Byte).length < 2) ∧ ([] : List Byte).length ≠ (1#8 : Byte).toNat ∧
    (ready [0x21#8, 0x50#8, 1#8]).pseq = .idle ∧
    (ready [0x21#8, 0x50#8, 1#8]).host.inputs = .frame (0x21#8 :: [0x50#8, 1#8]) none :: [] :=
  ⟨by decide, by decide, rfl, rfl⟩
theorem witness_Wrreg_fails : ∃ w d, ((answering [gives 2 []]).downstream.sees (.write 0x50#8 [0xA5#8])).answer
    (.write 0x50#8 [0xA5#8]) = (some w, d) ∧ w.st ≠ 0 ∧ noCutWithin 1 (answering [gives 2 []]) = true :=
  ⟨_, _, rfl, by decide, rfl⟩
theorem witness_Wrreg_goes_on : ∃ w d, ((answering [gives 0 []]).downstream.sees (.write 0x50#8 [0xA5#8])).answer
    (.write 0x50#8 [0xA5#8]) = (some w, d) ∧ w.st = 0 ∧ noCutWithin 2 (answering [gives 0 []]) = true :=
  ⟨_, _, rfl, rfl, rfl⟩
theorem witness_RdregSuccess : ∃ t, exec (.rdreg 0x00#8 1#8) (answering [gives 0 [9#8]]) = .next t ∧
    Returned (answering [gives 0 [9#8]]) t (0x00#8 :: [9#8]) := ⟨_, rfl, rfl⟩
theorem witness_RdregCut_at_once : (cutting 0 []).host.cut = some 0 := rfl
theorem witness_RdregCut_unprimed : (cutting 1 []).host.cut = some 1 ∧ (1#8 : Byte).toNat ≠ 0 ∧
    ¬ (0x30 ≤ (0x7A#8 : Byte).toNat ∧ (0x7A#8 : Byte).toNat ≤ 0x79) := ⟨rfl, by decide, by decide⟩
theorem witness_RdregCut_primed : (cutting 3 [gives 0 []]).host.cut = some 3 ∧ 0x30 ≤ (0x79#8 : Byte).toNat ∧
    ∃ w d, w.st = 0 ∧ ((cutting 3 [gives 0 []]).downstream.sees (.write Config.selectReg [0x79#8, 1#8])).answer
      (.write Config.selectReg [0x79#8, 1#8]) = (some w, d) := ⟨rfl, by decide, _, _, rfl, rfl⟩
theorem witness_WrregCut : (cutting 2 [gives 0 []]).host.cut = some 2 ∧
    ∃ w d, w.st = 0 ∧ ((cutting 2 [gives 0 []]).downstream.sees (.write 0x50#8 [0xA5#8])).answer
      (.write 0x50#8 [0xA5#8]) = (some w, d) := ⟨rfl, _, _, rfl, rfl⟩
theorem witness_SilentTransfer_first : (answering [.never]).downstream.answers = .never :: [] ∧
    noCutWithin 1 (answering [.never]) = true ∧ (1#8 : Byte).toNat ≠ 0 ∧ ([0#8] : List Byte).length ≠ 0 ∧
    ¬ (0x30 ≤ (0x7A#8 : Byte).toNat ∧ (0x7A#8 : Byte).toNat ≤ 0x79) ∧
    0x30 ≤ (0x30#8 : Byte).toNat ∧ (0x30#8 : Byte).toNat ≤ 0x79 :=
  ⟨rfl, rfl, by decide, by decide, by decide, by decide, by decide⟩
/-- The priming write is answered and the read is not. -/
theorem witness_SilentTransfer_read : (255#8 : Byte).toNat ≠ 0 ∧ 0x30 ≤ (0x79#8 : Byte).toNat ∧
    (0x79#8 : Byte).toNat ≤ 0x79 ∧ noCutWithin 3 (answering [gives 0 [], .never]) = true ∧
    ∃ w d1 d2, ((answering [gives 0 [], .never]).downstream.sees (.write Config.selectReg [0x79#8, 255#8])).answer
      (.write Config.selectReg [0x79#8, 255#8]) = (some w, d1) ∧ w.st = 0 ∧
      ((d1.sees .settle).sees (.read 0x79#8 255#8)).answer (.read 0x79#8 255#8) = (none, d2) :=
  ⟨by decide, by decide, by decide, rfl, _, _, _, rfl, rfl, rfl⟩
theorem witness_Waiting_signal : (waiting [.frame [0x31#8] (some 1), .signal .reset]).pseq ≠ .idle ∧
    (waiting [.frame [0x31#8] (some 1), .signal .reset]).host.inputs = framesOnly [([0x31#8], some 1)] ++ .signal .reset :: [] :=
  ⟨by decide, rfl⟩
theorem witness_Waiting_stuck : (waiting [.frame [0x31#8] none]).pseq ≠ .idle ∧
    (waiting [.frame [0x31#8] none]).host.inputs = framesOnly [([0x31#8], none)] := ⟨by decide, rfl⟩
theorem witness_FailureChangesNoState : ∃ t, step (ready [0x03#8, 0x12#8]) = .next t ∧
    Returned (ready [0x03#8, 0x12#8]) t (0x03#8 :: []) ∧ (0x03#8 : Byte) ≠ 0x00#8 := ⟨_, rfl, rfl, by decide⟩
theorem witness_OnlySetmodeWritesHmode : ∃ t, exec (.bcd2bin 0x12#8) (held .hour12) = .next t ∧
    (held .hour12).host.cut = none ∧ ∀ m, Instr.bcd2bin 0x12#8 ≠ .setmode m := ⟨_, rfl, rfl, by simp⟩
theorem witness_OnlyCodecsWriteFlags : (∃ t, exec .getst .reset = .next t) ∧ isCodec .getst = false ∧
    (∃ t, exec (.fix3 0x80#8 0#8 0#8) .reset = .next t) ∧ isCodec (.fix3 0x80#8 0#8 0#8) = true ∧
    State.reset.host.cut = none := ⟨⟨_, rfl⟩, rfl, ⟨_, rfl⟩, rfl, rfl⟩
theorem witness_Statuses : (∃ t, exec (.rdreg 0#8 0#8) .reset = .next t ∧ Returned .reset t [0x01#8]) ∧
    (∃ t, exec (.rdreg 0#8 2#8) (answering [gives 0 [1#8]]) = .next t ∧
      Returned (answering [gives 0 [1#8]]) t [0x04#8]) := ⟨⟨_, rfl, rfl⟩, ⟨_, rfl, rfl⟩⟩
theorem witness_PureOperations : isRegAccess (.coord 0#8 0#8 0#8 0#8 0#8 0#8) = false := rfl
theorem witness_ModeFreeOperations : (∀ b, Instr.rdreg 0#8 1#8 ≠ .hrdec b) ∧ (∀ b, Instr.rdreg 0#8 1#8 ≠ .hrenc b) ∧
    (∀ m, Instr.rdreg 0#8 1#8 ≠ .setmode m) ∧ Instr.rdreg 0#8 1#8 ≠ .getst ∧
    ∃ t, exec (.rdreg 0#8 1#8) (answering [gives 0 [1#8]]) = .next t := ⟨by simp, by simp, by simp, by simp, _, rfl⟩
theorem witness_StepAddsOneOperationsEvents : ∃ t, step (ready [0x20#8, 0x30#8, 0x07#8]) = .next t := ⟨_, rfl⟩

/-- A state in which a step answers meets the hypotheses of the port's invariant. -/
theorem witness_PortOk : PortOk (ready [0x31#8]) ∧ ∃ t, step (ready [0x31#8]) = .next t :=
  ⟨{ legal := by simp [ready, State.reset]
     primed := by simp [PrimedReads, ready, State.reset]
     settles := by simp [SettlesFollowWrites, ready, State.reset]
     traceIsTail := ⟨[], rfl⟩ }, _, rfl⟩
theorem witness_HostOk : HostOk (ready [0x31#8]) where
  reserved := rfl
  responses := by simp [ready, State.reset]
  sequencer := .inl rfl

/-- The idle block, handed a primed read of one byte that succeeds. -/
def readsPrimed : State :=
  { answering [gives 0 [], gives 0 [7#8]] with host := ⟨[.frame [0x20#8, 0x79#8, 1#8] none], none, []⟩ }

/-- The events of that read. -/
def primedLog : List BusEvent := [.write Config.selectReg [0x79#8, 1#8], .settle, .read 0x79#8 1#8]

theorem witness_PrimingWindowIsExclusive_portOk : PortOk readsPrimed where
  legal := by simp [readsPrimed, answering]
  primed := by simp [PrimedReads, readsPrimed, answering]
  settles := by simp [SettlesFollowWrites, readsPrimed, answering]
  traceIsTail := ⟨[], rfl⟩
theorem witness_PrimingWindowIsExclusive_step : ∃ t, step readsPrimed = .next t ∧
    blockEvents (primedLog.map (Master.block, ·)) = t.downstream.log := ⟨_, rfl, rfl⟩
theorem witness_PrimingWindowIsExclusive_bus :
    ExclusiveOwnership (primedLog.map (Master.block, ·)) ∧
    primedLog.map (Master.block, ·) = (primedLog.take 2).map (Master.block, ·) ++ (.block, .read 0x79#8 1#8) :: [] ∧
    0x30 ≤ (0x79#8 : Byte).toNat ∧ (0x79#8 : Byte).toNat ≤ 0x79 := by
  simp [ExclusiveOwnership, primedLog]

/-- The line of that read, the transport pausing after it. -/
def primedLine : List LineEvent := primedLog.map .ofBlock ++ [.transportPause]

theorem witness_EveryTransfer_step : ∃ t, step readsPrimed = .next t ∧ Returned readsPrimed t (0x00#8 :: [7#8]) ∧
    t.trace = primedLog ∧ blockPart [] = readsPrimed.downstream.log ∧
    blockPart ([] ++ primedLine) = t.downstream.log := ⟨_, rfl, rfl, rfl, rfl, rfl⟩
theorem witness_EveryTransfer_notEndsInWrite : ¬ EndsInWrite primedLog := by
  rintro ⟨l, a, d, h⟩
  rcases l with _ | ⟨_, _ | ⟨_, _ | ⟨_, _ | _⟩⟩⟩ <;> simp [primedLog] at h
theorem witness_EveryTransfer_premises : PostReadSettle primedLine ∧ SettledThroughout [] := by
  constructor
  · intro pre a n post h
    rcases pre with _ | ⟨_, _ | ⟨_, _ | ⟨_, _ | ⟨_, _⟩⟩⟩⟩ <;> simp [primedLine, primedLog] at h
    exact ⟨[], h.2.2.2.symm⟩
  · intro pre x post h
    simp at h
/-- A failed write ends its operation with no pause after it. -/
theorem witness_EveryTransfer_endsInWrite : EndsInWrite [BusEvent.write 0x50#8 [0xA5#8]] := ⟨[], _, _, rfl⟩
theorem witness_UnsetModeBit : SameButUnsetMode State.reset { State.reset with hmode := ⟨false, .hour24⟩ } := ⟨rfl, rfl⟩
theorem witness_EveryFrameIsAnswered : (ready [0x31#8]).pseq = .idle ∧ transfersReturn (ready [0x31#8]) = true ∧
    (ready [0x31#8]).host.inputs = [[0x31#8]].map (.frame · none) := ⟨rfl, rfl, rfl⟩

/-- Operations cut again and again: WRREG after its settle, a whole RDREG, RDREG cut at once, after its settle and after
its read, and GETST. -/
def cutOps : List (Instr × Option Nat) :=
  [(.wrreg 0x50#8 [0xA5#8], some 2), (.rdreg 0x79#8 1#8, none), (.rdreg 0x30#8 7#8, some 0), (.rdreg 0x30#8 7#8, some 2),
    (.rdreg 0x30#8 7#8, some 3), (.getst, none)]

/-- The idle block about to be handed them, every transfer to come succeeding. -/
def cutAgain : State :=
  { answering (List.replicate 12 (gives 0 [7#8])) with
    host := ⟨framesOnly (cutOps.map fun x => (encode x.1, x.2)), none, []⟩ }

theorem witness_EveryOperationCanBeCut_state : cutAgain.pseq = .idle ∧
    cutAgain.host.inputs = framesOnly (cutOps.map fun x => (encode x.1, x.2)) ∧
    (∀ a ∈ cutAgain.downstream.answers, ∃ r, a = .reply r ∧ r.st = 0) ∧
    2 * cutOps.length ≤ cutAgain.downstream.answers.length := by
  refine ⟨rfl, rfl, fun a h => ⟨⟨0, [7#8]⟩, ?_, rfl⟩, by decide⟩
  exact List.eq_of_mem_replicate h
theorem witness_EveryOperationCanBeCut_ops : ∀ x ∈ cutOps, x.1.wellFormed = true ∧
    ∀ k, x.2 = some k → isRegAccess x.1 = true ∧ k ≤ (wholeTrace x.1).length := by
  simp [cutOps, Instr.wellFormed, isRegAccess, wholeTrace]
/-- The second cut of a run, at `W, S`, after an operation that was cut before it. -/
theorem test_second_cut : (after (step { cutAgain with
      host := ⟨framesOnly [(encode (.rdreg 0x30#8 7#8), some 2)], some 0, []⟩ })).map (·.trace) = some [] ∧
    (after (step { cutAgain with
      host := ⟨framesOnly [(encode (.rdreg 0x30#8 7#8), some 2)], some 0, []⟩ })).map (·.downstream.log) =
      some [.write Config.selectReg [0x30#8, 0x07#8], .settle] := ⟨rfl, rfl⟩

end Sys2Proof.Tests
end

/-! ### The family of 00_scope.md: one frame, one operation, one response (rules R1, R3, R131) -/

namespace Sys2Proof.Machine

open Safety

/-- The idle block takes the frame at the head of the host's inputs (rule R3). -/
theorem State.fetch_of_frame {s : State} {F : List Byte} {cut : Option Nat} {rest : List HostInput}
    (hq : s.pseq = .idle) (hi : s.host.inputs = .frame F cut :: rest) : s.fetch = .frame F (s.accept cut rest) := by
  simp only [State.fetch, if_pos hq, hi]

/-- A legal frame runs its operation. -/
theorem step_of_decode_ok {s : State} {F : List Byte} {cut : Option Nat} {rest : List HostInput} {i : Instr}
    (hq : s.pseq = .idle) (hi : s.host.inputs = .frame F cut :: rest) (hd : decode F = .ok i) :
    step s = exec i (s.accept cut rest) := by
  simp only [step, State.fetch_of_frame hq hi, hd]

/-- An illegal frame is answered by its status alone (rule R107). -/
theorem step_of_decode_error {s : State} {F : List Byte} {cut : Option Nat} {rest : List HostInput} {e : DecodeError}
    (hq : s.pseq = .idle) (hi : s.host.inputs = .frame F cut :: rest) (hd : decode F = .error e) :
    step s = .next (s.accept cut rest).illegalFrame := by
  simp only [step, State.fetch_of_frame hq hi, hd]

/-- All a codec, mode or status operation can do: write HMODE and FLAGS and return one response, none of which depends
on the downstream agent (rule R1). -/
theorem exec_of_not_isRegAccess {i : Instr} (h : isRegAccess i = false) (s : State) :
    ∃ (m : HMode) (f : BitVec 8) (r : List Byte), ∀ d : Downstream,
      exec i { s with downstream := d } =
        .next (State.respond r { s with hmode := m, flags := f, downstream := d }) := by
  cases i with
  | bcd2bin b => exact ⟨_, _, _, fun _ => rfl⟩
  | bin2bcd v => exact ⟨_, _, _, fun _ => rfl⟩
  | hrdec b =>
    simp only [exec, execHrdec]
    split
    · exact ⟨_, _, _, fun _ => rfl⟩
    · exact ⟨_, _, _, fun _ => rfl⟩
  | hrenc b =>
    simp only [exec, execHrenc]
    split
    · exact ⟨_, _, _, fun _ => rfl⟩
    · exact ⟨_, _, _, fun _ => rfl⟩
  | coord d0 d1 d2 d3 d4 d5 => exact ⟨_, _, _, fun _ => rfl⟩
  | fix3 b0 b1 b2 => exact ⟨_, _, _, fun _ => rfl⟩
  | rdreg reg len => cases h
  | wrreg reg data => cases h
  | setmode m => exact ⟨_, _, _, fun _ => rfl⟩
  | getst => exact ⟨s.hmode, s.flags, [stOk, s.readFlags, modeStatusByte s.hmode], fun _ => rfl⟩

/-! #### Operations that nothing interrupts: no cut pending, and every known answer comes -/

/-- An operation that began with the host's side at `h` stands in `u`, with no cut pending and a downstream agent whose
known answers all come (rule R131). -/
structure Uninterrupted (h : HostPort) (u : State) : Prop where
  host : u.host = h
  noCut : h.cut = none
  returns : BusAnswer.never ∉ u.downstream.answers

/-- An operation that began with the host's side at `h` ended in `t`: one response was returned, the block is ready, and
the agent's known answers still all come. -/
structure AnsweredOnce (h : HostPort) (t : State) : Prop where
  idle : t.pseq = .idle
  host : ∃ r, t.host = { h with received := h.received ++ [r] }
  returns : BusAnswer.never ∉ t.downstream.answers

variable {h : HostPort} {u : State}

theorem Uninterrupted.respond_answers (hu : Uninterrupted h u) (r : List Byte) : AnsweredOnce h (u.respond r) where
  idle := rfl
  host := ⟨r, by rw [← hu.host]; rfl⟩
  returns := hu.returns

theorem Uninterrupted.raise_answers (hu : Uninterrupted h u) (c : Byte) : AnsweredOnce h (u.raise c) :=
  hu.respond_answers [c]

theorem Uninterrupted.host_cut (hu : Uninterrupted h u) : u.host.cut = none := by rw [hu.host, hu.noCut]

/-- With no cut pending, issuing an event leaves the host's side as it was. -/
theorem Uninterrupted.issue (hu : Uninterrupted h u) (q : Pseq) (e : BusEvent) : Uninterrupted h (u.issue q e) where
  host := by
    rw [← hu.host]
    simp only [State.issue, hu.host_cut, Option.map_none]
    rw [← hu.host_cut]
  noCut := hu.noCut
  returns := hu.returns

/-- A cut point goes on. -/
theorem Uninterrupted.cutPoint_eq (hu : Uninterrupted h u) : u.cutPoint = .go () u :=
  State.cutPoint_go (by simp [hu.host_cut])

/-- A settle goes on. -/
theorem Uninterrupted.settle_eq (hu : Uninterrupted h u) (q : Pseq) : u.settle q = .go () (u.issue q .settle) :=
  (hu.issue q .settle).cutPoint_eq

/-- A transfer gets its answer and goes on. -/
theorem Uninterrupted.transfer_eq (hu : Uninterrupted h u) (q : Pseq) (e : BusEvent) :
    ∃ r v, u.transfer q e = .go r v ∧ Uninterrupted h v := by
  obtain ⟨r, d, ha, hd⟩ := Downstream.answer_of_returning (e := e) (d := u.downstream.sees e) hu.returns
  have hi := hu.issue q e
  exact ⟨r, _, State.transfer_go (by simp [hu.host_cut]) ha, hi.host, hi.noCut, hd⟩

theorem Uninterrupted.readRegisters_answers (hu : Uninterrupted h u) (reg len : Byte) :
    AnsweredOnce h (u.readRegisters reg len) := by
  obtain ⟨r, v, ht, hv⟩ := hu.transfer_eq .read (.read reg len)
  rw [State.readRegisters, ht, Phase.finish_go]
  split
  · exact hv.raise_answers _
  · split
    · exact hv.raise_answers _
    · exact hv.respond_answers _

theorem Uninterrupted.readPrimed_answers (hu : Uninterrupted h u) (reg len : Byte) :
    AnsweredOnce h (u.readPrimed reg len) := by
  obtain ⟨r, v, ht, hv⟩ := hu.transfer_eq .primeWr (.write Config.selectReg [reg, len])
  rw [State.readPrimed, ht, Phase.finish_go]
  split
  · exact hv.raise_answers _
  · rw [hv.settle_eq, Phase.finish_go]
    exact (hv.issue _ _).readRegisters_answers reg len

theorem Uninterrupted.writeRegisters_answers (hu : Uninterrupted h u) (reg : Byte) (data : List Byte) :
    AnsweredOnce h (u.writeRegisters reg data) := by
  obtain ⟨r, v, ht, hv⟩ := hu.transfer_eq .write (.write reg data)
  rw [State.writeRegisters, ht, Phase.finish_go]
  split
  · exact hv.raise_answers _
  · rw [hv.settle_eq, Phase.finish_go]
    exact (hv.issue _ _).respond_answers _

theorem Uninterrupted.execRdreg_answers (hu : Uninterrupted h u) (reg len : Byte) :
    ∃ t, execRdreg reg len u = .next t ∧ AnsweredOnce h t := by
  refine ⟨_, rfl, ?_⟩
  rw [hu.cutPoint_eq, Phase.finish_go]
  split
  · exact hu.raise_answers _
  · split
    · exact hu.readPrimed_answers reg len
    · exact hu.readRegisters_answers reg len

theorem Uninterrupted.execWrreg_answers (hu : Uninterrupted h u) (reg : Byte) (data : List Byte) :
    ∃ t, execWrreg reg data u = .next t ∧ AnsweredOnce h t := by
  refine ⟨_, rfl, ?_⟩
  rw [hu.cutPoint_eq, Phase.finish_go]
  split
  · exact hu.raise_answers _
  · exact hu.writeRegisters_answers reg data

theorem Uninterrupted.exec_answers_of_not_isRegAccess (hu : Uninterrupted h u) {i : Instr} (hp : isRegAccess i = false) :
    ∃ t, exec i u = .next t ∧ AnsweredOnce h t := by
  obtain ⟨m, f, r, he⟩ := exec_of_not_isRegAccess hp u
  have hw : Uninterrupted h { u with hmode := m, flags := f } := ⟨hu.host, hu.noCut, hu.returns⟩
  exact ⟨_, he u.downstream, hw.respond_answers r⟩

/-- Every operation that nothing interrupts returns one response (rules R105, R131). -/
theorem Uninterrupted.exec_answers (hu : Uninterrupted h u) (i : Instr) :
    ∃ t, exec i u = .next t ∧ AnsweredOnce h t := by
  cases hp : isRegAccess i with
  | false => exact hu.exec_answers_of_not_isRegAccess hp
  | true =>
    cases i with
    | rdreg reg len => exact hu.execRdreg_answers reg len
    | wrreg reg data => exact hu.execWrreg_answers reg data
    | _ => cases hp

/-- A frame with no cut, taken by the idle block, is answered by one response in one step, be it legal or not. -/
theorem step_answers_frame {s : State} {F : List Byte} {rest : List HostInput} (hq : s.pseq = .idle)
    (hr : BusAnswer.never ∉ s.downstream.answers) (hi : s.host.inputs = .frame F none :: rest) :
    ∃ t, step s = .next t ∧ AnsweredOnce { s.host with inputs := rest, cut := none } t := by
  have ha : Uninterrupted { s.host with inputs := rest, cut := none } (s.accept none rest) := ⟨rfl, rfl, hr⟩
  cases hd : decode F with
  | error e => exact ⟨_, step_of_decode_error hq hi hd, ha.raise_answers stIllegal⟩
  | ok i =>
    rw [step_of_decode_ok hq hi hd]
    exact ha.exec_answers i

/-- A run of `n + 1` steps is one step and a run of `n` (rule R16, log entry 1). -/
theorem run_succ_of_step {s t : State} (hs : step s = .next t) (n : Nat) : core.run (n + 1) s = core.run n t := by
  have hc : core.step s = .next t := hs
  simp only [Host.Core.run, hc]

/-- As many steps as frames answer them all, by induction on the frames. -/
theorem run_answers_frames (Fs : List (List Byte)) (s : State) (hq : s.pseq = .idle)
    (hr : BusAnswer.never ∉ s.downstream.answers) (hi : s.host.inputs = Fs.map (.frame · none)) :
    ∃ (t : State) (rs : List (List Byte)), core.run Fs.length s = .next t ∧ rs.length = Fs.length ∧
      t.host.received = s.host.received ++ rs ∧ t.host.inputs = [] ∧ t.pseq = .idle := by
  induction Fs generalizing s with
  | nil => exact ⟨s, [], rfl, rfl, (List.append_nil _).symm, hi, hq⟩
  | cons F Fs ih =>
    obtain ⟨u, hs, hidle, ⟨r, hu⟩, hret⟩ := step_answers_frame hq hr hi
    obtain ⟨t, rs, hrun, hlen, hrec, hend⟩ := ih u hidle hret (by rw [hu])
    refine ⟨t, r :: rs, (run_succ_of_step hs _).trans hrun, congrArg (· + 1) hlen, ?_, hend⟩
    simp [hrec, hu]

end Sys2Proof.Machine

namespace Sys2Proof

open Machine Safety

/-- Settles O5: the frame is fetched, and decoding it selects `exec`. -/
theorem stepRunsTheDecodedFrame : Obligations.StepRunsTheDecodedFrame := by
  intro s F cut others i hq hi hd
  exact step_of_decode_ok hq hi hd

/-- Settles O34: such an operation writes HMODE and FLAGS and responds, the same whatever the agent. -/
theorem pureOperationsNeverTouchTheBus : Obligations.PureOperationsNeverTouchTheBus := by
  intro i s d h
  obtain ⟨m, f, r, he⟩ := exec_of_not_isRegAccess h s
  exact ⟨_, he s.downstream, rfl, rfl, he d⟩

/-- Settles O42: each step answers one frame and leaves the premises standing for the next. -/
theorem everyFrameIsAnswered : Obligations.EveryFrameIsAnswered := by
  intro s Fs hq hr hi
  exact run_answers_frames Fs s hq (of_decide_eq_true hr) hi

end Sys2Proof

/-! ### The family of 10_state.md: HMODE, FLAGS and PSEQ (rules R10 to R19) -/

namespace Sys2Proof.Machine

open Safety

/-! #### The step, one equation per way the block can meet its inputs -/

/-- An idle block with nothing at its inputs waits (rule R120). -/
theorem step_of_no_input {s : State} (hq : s.pseq = .idle) (hi : s.host.inputs = []) : step s = .next s := by
  simp only [step, State.fetch, if_pos hq, hi]

/-- A reset or CANCEL between operations resets the block (rules R112, R120). -/
theorem step_of_signal {s : State} {k : Signal} {rest : List HostInput} (hq : s.pseq = .idle)
    (hi : s.host.inputs = .signal k :: rest) : step s = .next (s.withInputs rest).resetBlock := by
  simp only [step, State.fetch, if_pos hq, hi]

/-- A reset or CANCEL reaches a block that waits on a transfer past the frames ahead of it (rules R3, R112). -/
theorem step_of_signal_while_waiting {s : State} {rest : List HostInput} (hq : s.pseq ≠ .idle)
    (hi : takeSignal s.host.inputs = some rest) : step s = .next (s.withInputs rest).resetBlock := by
  simp only [step, State.fetch, if_neg hq, hi]

/-- With no reset or CANCEL coming, a block that waits on a transfer is stuck (rule R131). -/
theorem step_of_stuck {s : State} (hq : s.pseq ≠ .idle) (hi : takeSignal s.host.inputs = none) :
    step s = .fault .transferNeverReturns := by
  simp only [step, State.fetch, if_neg hq, hi]

/-- A run is determined by its first step. -/
theorem run_succ_congr {s t : State} (h : step s = step t) (n : Nat) : core.run (n + 1) s = core.run (n + 1) t := by
  have hc : core.step s = core.step t := h
  simp only [Host.Core.run, hc]

/-! #### Everything an operation can do, said once for all ten -/

/-- While HMODE.V = 0 an hour operation is answered ST_NOMODE (rule R109). -/
theorem exec_hrdec_of_unset {s : State} (hv : s.hmode.v = false) (b : Byte) :
    exec (.hrdec b) s = .next (s.raise stNomode) := by
  simp [exec, execHrdec, hv]

theorem exec_hrenc_of_unset {s : State} (hv : s.hmode.v = false) (b : Byte) :
    exec (.hrenc b) s = .next (s.raise stNomode) := by
  simp [exec, execHrenc, hv]

/-- With a mode held an hour operation answers under it (rules R84, R86). -/
theorem exec_hrdec_of_held {s : State} {m : HourMode} (hm : s.hmode = ⟨true, m⟩) (b : Byte) :
    exec (.hrdec b) s = .next (s.finishCodec (decodeHour m b).rng (decodeHour m b).inv
      [byteOf (decodeHour m b).hr, byteOf (decodeHour m b).h24,
        hourFlagByte (decodeHour m b).f24 (decodeHour m b).pm]) := by
  simp [exec, execHrdec, hm]

theorem exec_hrenc_of_held {s : State} {m : HourMode} (hm : s.hmode = ⟨true, m⟩) (h : Byte) :
    exec (.hrenc h) s = .next (s.finishCodec (rngHour h.toNat) false [byteOf (encodeHour m h.toNat)]) := by
  simp [exec, execHrenc, hm]

/-- GETST's MODE byte while HMODE.V = 0 is 0xFF (rule R61). -/
theorem exec_getst_of_unset {s : State} (hv : s.hmode.v = false) :
    exec .getst s = .next (s.respond [stOk, s.readFlags, modeUnset]) := by
  simp [exec, execGetst, modeStatusByte, hv]

/-- A codec operation is refused for want of a mode, or it overwrites FLAGS and returns at most nine bytes after ST_OK;
which of the two, and with what flags and bytes, does not depend on the old FLAGS (rules R12, R49). -/
theorem exec_codec_cases {i : Instr} (h : isCodec i = true) (s : State) :
    (∀ f : BitVec 8, exec i { s with flags := f } = .next (State.raise stNomode { s with flags := f })) ∨
    ∃ (rng inv : Bool) (r : List Byte), r.length ≤ 9 ∧
      ∀ f : BitVec 8, exec i { s with flags := f } = .next (State.finishCodec rng inv r { s with flags := f }) := by
  cases i with
  | bcd2bin b => exact .inr ⟨_, _, _, by simp, fun _ => rfl⟩
  | bin2bcd v => exact .inr ⟨_, _, _, by simp, fun _ => rfl⟩
  | hrdec b =>
    rcases s.hmode with ⟨_ | _, m⟩
    · exact .inl fun _ => exec_hrdec_of_unset rfl b
    · exact .inr ⟨_, _, _, by simp, fun _ => exec_hrdec_of_held rfl b⟩
  | hrenc b =>
    rcases s.hmode with ⟨_ | _, m⟩
    · exact .inl fun _ => exec_hrenc_of_unset rfl b
    · exact .inr ⟨_, _, _, by simp, fun _ => exec_hrenc_of_held rfl b⟩
  | coord d0 d1 d2 d3 d4 d5 => exact .inr ⟨_, _, _, by simp [be], fun _ => rfl⟩
  | fix3 b0 b1 b2 => exact .inr ⟨_, _, _, by simp [be], fun _ => rfl⟩
  | rdreg reg len => cases h
  | wrreg reg data => cases h
  | setmode m => cases h
  | getst => cases h

/-- A status byte alone is a legal response (rule R105). -/
theorem legalResponse_status {c : Byte} (h : c.toNat ≤ 4) : LegalResponse [c] :=
  ⟨c, [], rfl, h, fun _ => rfl, by simp⟩

/-- ST_OK and at most 255 result bytes are a legal response (rule R41). -/
theorem legalResponse_ok {r : List Byte} (h : r.length ≤ 255) : LegalResponse (stOk :: r) :=
  ⟨stOk, r, rfl, by decide, fun hne => absurd rfl hne, Nat.succ_le_succ h⟩

theorem rdregResponse_legal {len : Byte} {evs : List BusEvent} {r : List Byte} (h : rdregResponse len evs r) :
    LegalResponse r := by
  rcases h with rfl | ⟨-, ⟨rfl, -⟩ | ⟨data, rfl, hlen⟩⟩
  · exact legalResponse_status (by decide)
  · exact legalResponse_status (by decide)
  · exact legalResponse_ok (by have := len.isLt; omega)

theorem wrregResponse_legal {reg : Byte} {data : List Byte} {evs : List BusEvent} {r : List Byte}
    (h : wrregResponse reg data evs r) : LegalResponse r := by
  rcases h with rfl | ⟨rfl, -⟩
  · exact legalResponse_status (by decide)
  · exact legalResponse_ok (by simp)

/-- The sequencer steps in which an operation can wait for ever (rule R131, U20): those of a transfer. -/
def WaitsOnTransfer (q : Pseq) : Prop := q = .primeWr ∨ q = .read ∨ q = .write

/-- The way an operation ends, with less said of its response and of where it waits. -/
theorem RegEnd.mono {s t : State} {evs : List BusEvent} {ok ok' : List Byte → Prop} {waits waits' : Pseq → Prop}
    (h : RegEnd s t evs ok waits) (hok : ∀ r, ok r → ok' r) (hwaits : ∀ q, waits q → waits' q) :
    RegEnd s t evs ok' waits' := by
  rcases h with ⟨u, h, hc, e⟩ | ⟨u, h, r, hr, e⟩ | ⟨u, h, hq, e⟩
  · exact .cancelled u h hc e
  · exact .responded u h r (hok r hr) e
  · exact .waiting u h (hwaits _ hq) e

/-- How an operation begun in `s` ends in `t`. -/
inductive ExecEnd (i : Instr) (s t : State) : Prop where
  /-- A codec operation overwrote FLAGS and answered ST_OK (rule R12). -/
  | codec (rng inv : Bool) (r : List Byte) (op : isCodec i = true) (short : r.length ≤ 9)
      (eq : t = s.finishCodec rng inv r)
  /-- An hour operation found no mode set (rule R109). -/
  | refused (op : isCodec i = true) (eq : t = s.raise stNomode)
  /-- SETMODE (rule R60). -/
  | setmode (m : HourMode) (op : i = .setmode m) (eq : t = (s.writeHmode m).respond [stOk])
  /-- GETST (rule R61). -/
  | getst (op : i = .getst) (eq : t = s.respond [stOk, s.readFlags, modeStatusByte s.hmode])
  /-- A register operation (rules R66, R70). -/
  | register (evs : List BusEvent) (op : isRegAccess i = true) (ends : RegEnd s t evs LegalResponse WaitsOnTransfer)

/-- Everything an operation can do. -/
theorem exec_next_cases {i : Instr} {s t : State} (h : exec i s = .next t) : ExecEnd i s t := by
  have codec (hc : isCodec i = true) : ExecEnd i s t := by
    rcases exec_codec_cases hc s with he | ⟨rng, inv, r, hr, he⟩
    · exact .refused hc (Host.Outcome.next.inj (h.symm.trans (he s.flags)))
    · exact .codec rng inv r hc hr (Host.Outcome.next.inj (h.symm.trans (he s.flags)))
  cases i with
  | rdreg reg len =>
    obtain ⟨u, evs, hu, -, hend⟩ := execRdreg_cases reg len s
    obtain rfl : t = u := Host.Outcome.next.inj (h.symm.trans hu)
    exact .register evs rfl (hend.mono (fun _ => rdregResponse_legal) fun q hq => hq.imp_right .inl)
  | wrreg reg data =>
    obtain ⟨u, evs, hu, -, hend⟩ := execWrreg_cases reg data s
    obtain rfl : t = u := Host.Outcome.next.inj (h.symm.trans hu)
    exact .register evs rfl (hend.mono (fun _ => wrregResponse_legal) fun q hq => .inr (.inr hq))
  | setmode m => exact .setmode m rfl (Host.Outcome.next.inj h).symm
  | getst => exact .getst rfl (Host.Outcome.next.inj h).symm
  | _ => exact codec rfl

end Sys2Proof.Machine

namespace Sys2Proof.Safety

open Machine

/-! #### The discipline of the host's side and of the registers -/

section HostDiscipline

variable {s t : State}

/-- Returning a legal response keeps the discipline. -/
theorem HostOk.respond (hs : HostOk s) {r : List Byte} (hr : LegalResponse r) : HostOk (s.respond r) where
  reserved := hs.reserved
  responses := by
    intro r' hr'
    rcases List.mem_append.mp hr' with hold | hnew
    · exact hs.responses r' hold
    · exact List.mem_singleton.mp hnew ▸ hr
  sequencer := .inl rfl

/-- So does a status alone (rule R105). -/
theorem HostOk.raise (hs : HostOk s) {c : Byte} (hc : c.toNat ≤ 4) : HostOk (s.raise c) :=
  hs.respond (legalResponse_status hc)

theorem HostOk.writeFlags (hs : HostOk s) (rng inv : Bool) : HostOk (s.writeFlags rng inv) :=
  ⟨packFlags_reserved rng inv, hs.responses, hs.sequencer⟩

theorem HostOk.writeHmode (hs : HostOk s) (m : HourMode) : HostOk (s.writeHmode m) :=
  ⟨hs.reserved, hs.responses, hs.sequencer⟩

theorem HostOk.finishCodec (hs : HostOk s) (rng inv : Bool) {r : List Byte} (hr : r.length ≤ 255) :
    HostOk (s.finishCodec rng inv r) :=
  (hs.writeFlags rng inv).respond (legalResponse_ok hr)

theorem HostOk.accept (hs : HostOk s) (cut : Option Nat) (rest : List HostInput) : HostOk (s.accept cut rest) :=
  ⟨hs.reserved, hs.responses, hs.sequencer⟩

theorem HostOk.resetBlock (hs : HostOk s) : HostOk s.resetBlock :=
  ⟨by simp, hs.responses, .inl rfl⟩

theorem HostOk.withInputs (hs : HostOk s) (rest : List HostInput) : HostOk (s.withInputs rest) :=
  ⟨hs.reserved, hs.responses, hs.sequencer⟩

/-- A register operation keeps the discipline, however it ends. -/
theorem HostOk.regEnd (hs : HostOk s) {evs : List BusEvent} (h : RegEnd s t evs LegalResponse WaitsOnTransfer) :
    HostOk t := by
  rcases h with ⟨u, hu, -, rfl⟩ | ⟨u, hu, r, hr, rfl⟩ | ⟨u, hu, hq, rfl⟩
  · exact ⟨by simp, hu.received ▸ hs.responses, .inl rfl⟩
  · have hidle : HostOk { u with pseq := .idle } := ⟨hu.flags ▸ hs.reserved, hu.received ▸ hs.responses, .inl rfl⟩
    exact hidle.respond hr
  · exact ⟨hu.flags ▸ hs.reserved, hu.received ▸ hs.responses, .inr hq⟩

/-- Every operation keeps the discipline. -/
theorem HostOk.exec {i : Instr} (hs : HostOk s) (h : exec i s = .next t) : HostOk t := by
  rcases exec_next_cases h with ⟨rng, inv, r, -, hr, rfl⟩ | ⟨-, rfl⟩ | ⟨m, -, rfl⟩ | ⟨-, rfl⟩ | ⟨evs, -, hend⟩
  · exact hs.finishCodec rng inv (by omega)
  · exact hs.raise (by decide)
  · exact (hs.writeHmode m).respond (legalResponse_ok (by simp))
  · exact hs.respond (legalResponse_ok (by simp))
  · exact hs.regEnd hend

/-- Every step keeps the discipline. -/
theorem HostOk.step (hs : HostOk s) (h : step s = .next t) : HostOk t := by
  rcases step_next_cases h with ⟨-, rfl⟩ | ⟨rest, rfl⟩ | ⟨F, c, rest, e, -, -, -, rfl⟩ | ⟨F, c, rest, i, -, -, -, he⟩
  · exact hs
  · exact (hs.withInputs rest).resetBlock
  · exact (hs.accept c rest).raise (by decide)
  · exact (hs.accept c rest).exec he

end HostDiscipline

end Sys2Proof.Safety

namespace Sys2Proof.Machine

open Safety

/-! #### What a response says of the registers -/

section Responses

variable {s t : State}

/-- Where the host has received nothing more, no response was returned. -/
theorem not_returned_of_received_eq {r : List Byte} (h : t.host.received = s.host.received) : ¬ Returned s t r := by
  intro hr
  simpa using h.symm.trans hr

/-- An operation that returns a status other than ST_OK leaves HMODE and FLAGS (rule R13). -/
theorem exec_failure_keeps_registers {i : Instr} {st : Byte} {rest : List Byte} (h : exec i s = .next t)
    (hr : Returned s t (st :: rest)) (hst : st ≠ stOk) : t.hmode = s.hmode ∧ t.flags = s.flags := by
  have not_ok {r : List Byte} (hok : Returned s t (stOk :: r)) : False := by
    have hrr : [st :: rest] = [stOk :: r] := List.append_cancel_left (hr.symm.trans hok)
    exact hst (List.cons.inj (List.singleton_inj.mp hrr)).1
  rcases exec_next_cases h with ⟨rng, inv, r, -, -, rfl⟩ | ⟨-, rfl⟩ | ⟨m, -, rfl⟩ | ⟨-, rfl⟩ | ⟨evs, -, hend⟩
  · exact (not_ok rfl).elim
  · exact ⟨rfl, rfl⟩
  · exact (not_ok rfl).elim
  · exact ⟨rfl, rfl⟩
  · obtain ⟨-, -, ⟨-, -, -, -, hrec, -⟩ | ⟨r, -, hm, hf, -⟩ | ⟨-, hm, hf, -⟩⟩ := hend.fields
    · exact absurd hr (not_returned_of_received_eq hrec)
    · exact ⟨hm, hf⟩
    · exact ⟨hm, hf⟩

/-- A register operation with no reset or CANCEL pending keeps HMODE and FLAGS (rules R10, R12). -/
theorem RegEnd.keeps_registers {evs : List BusEvent} {ok : List Byte → Prop} {waits : Pseq → Prop}
    (h : RegEnd s t evs ok waits) (hc : s.host.cut = none) : t.hmode = s.hmode ∧ t.flags = s.flags := by
  obtain ⟨-, -, ⟨-, -, -, -, -, hcut⟩ | ⟨r, -, hm, hf, -⟩ | ⟨-, hm, hf, -⟩⟩ := h.fields
  · exact absurd hc hcut
  · exact ⟨hm, hf⟩
  · exact ⟨hm, hf⟩

end Responses

/-! #### Runs that differ in HMODE alone -/

section AlikeBut

/-- Two states of two runs beside each other: they are equal, as they are once a reset or CANCEL has landed in both, or
they differ at most in HMODE, the one holding `h` and the other `k`. -/
def AlikeBut (h k : HMode) (s t : State) : Prop := s = t ∨ (s.hmode = h ∧ t = { s with hmode := k })

variable {h k : HMode} {s t : State}

theorem alikeBut_setHmode (s : State) (k : HMode) : AlikeBut s.hmode k s { s with hmode := k } := .inr ⟨rfl, rfl⟩

/-- States that are alike agree on everything but HMODE. -/
theorem AlikeBut.fields (ha : AlikeBut h k s t) : t.flags = s.flags ∧ t.pseq = s.pseq ∧ t.trace = s.trace ∧
    t.host = s.host ∧ t.downstream = s.downstream := by
  rcases ha with rfl | ⟨-, rfl⟩
  · exact ⟨rfl, rfl, rfl, rfl, rfl⟩
  · exact ⟨rfl, rfl, rfl, rfl, rfl⟩

theorem AlikeBut.host (ha : AlikeBut h k s t) : t.host = s.host := by
  obtain ⟨-, -, -, hhost, -⟩ := ha.fields
  exact hhost

theorem AlikeBut.downstream (ha : AlikeBut h k s t) : t.downstream = s.downstream := by
  obtain ⟨-, -, -, -, hdown⟩ := ha.fields
  exact hdown

/-- A change of the state that neither reads nor writes HMODE keeps two states alike. -/
theorem AlikeBut.map (ha : AlikeBut h k s t) (f : State → State)
    (hf : ∀ (u : State) (m : HMode), f { u with hmode := m } = { f u with hmode := m }) : AlikeBut h k (f s) (f t) := by
  rcases ha with rfl | ⟨hs, rfl⟩
  · exact .inl rfl
  · have keeps : (f s).hmode = s.hmode := by rw [show f s = { f s with hmode := s.hmode } from hf s s.hmode]
    exact .inr ⟨keeps.trans hs, hf s k⟩

/-- A reset or CANCEL that lands in both leaves no difference (rule R112). -/
theorem AlikeBut.cancelled (ha : AlikeBut h k s t) : AlikeBut h k s.cancelled t.cancelled := by
  rcases ha with rfl | ⟨-, rfl⟩
  · exact .inl rfl
  · exact .inl rfl

/-- A cut point goes on in both or ends both. -/
theorem AlikeBut.cutPoint (ha : AlikeBut h k s t) {f : Unit → State → State}
    (hf : ∀ v w, AlikeBut h k v w → AlikeBut h k (f () v) (f () w)) :
    AlikeBut h k (s.cutPoint.finish f) (t.cutPoint.finish f) := by
  by_cases hc : s.host.cut = some 0
  · rw [State.cutPoint_due hc, State.cutPoint_due (ha.host ▸ hc)]
    exact ha.cancelled
  · rw [State.cutPoint_go hc, State.cutPoint_go (ha.host ▸ hc)]
    exact hf s t ha

/-- So does a settle. -/
theorem AlikeBut.settle (ha : AlikeBut h k s t) (q : Pseq) {f : Unit → State → State}
    (hf : ∀ v w, AlikeBut h k v w → AlikeBut h k (f () v) (f () w)) :
    AlikeBut h k ((s.settle q).finish f) ((t.settle q).finish f) :=
  (ha.map (State.issue q .settle) fun _ _ => rfl).cutPoint hf

/-- A transfer is cut, answered alike, or never answered, in both. -/
theorem AlikeBut.transfer (ha : AlikeBut h k s t) (q : Pseq) (e : BusEvent) {f : BusReply → State → State}
    (hf : ∀ r v w, AlikeBut h k v w → AlikeBut h k (f r v) (f r w)) :
    AlikeBut h k ((s.transfer q e).finish f) ((t.transfer q e).finish f) := by
  have after (d : Downstream) : AlikeBut h k { s.issue q e with downstream := d } { t.issue q e with downstream := d } :=
    ha.map (fun u => { u.issue q e with downstream := d }) fun _ _ => rfl
  by_cases hc : s.host.cut.map (· - 1) = some 0
  · rw [State.transfer_due hc, State.transfer_due (ha.host ▸ hc)]
    exact (ha.map (State.issue q e) fun _ _ => rfl).cancelled
  · rcases hans : (s.downstream.sees e).answer e with ⟨_ | r, d⟩
    · rw [State.transfer_wait hc hans, State.transfer_wait (ha.host ▸ hc) (ha.downstream ▸ hans)]
      exact after d
    · rw [State.transfer_go hc hans, State.transfer_go (ha.host ▸ hc) (ha.downstream ▸ hans)]
      exact hf r _ _ (after d)

theorem AlikeBut.respond (ha : AlikeBut h k s t) (r : List Byte) : AlikeBut h k (s.respond r) (t.respond r) :=
  ha.map (State.respond r) fun _ _ => rfl

theorem AlikeBut.raise (ha : AlikeBut h k s t) (c : Byte) : AlikeBut h k (s.raise c) (t.raise c) :=
  ha.respond [c]

theorem AlikeBut.finishCodec (ha : AlikeBut h k s t) (rng inv : Bool) (r : List Byte) :
    AlikeBut h k (s.finishCodec rng inv r) (t.finishCodec rng inv r) :=
  ha.map (State.finishCodec rng inv r) fun _ _ => rfl

theorem AlikeBut.readRegisters (ha : AlikeBut h k s t) (reg len : Byte) :
    AlikeBut h k (s.readRegisters reg len) (t.readRegisters reg len) := by
  refine ha.transfer .read (.read reg len) fun r v w hv => ?_
  split
  · exact hv.raise stFail
  · split
    · exact hv.raise stShort
    · exact hv.respond _

theorem AlikeBut.readPrimed (ha : AlikeBut h k s t) (reg len : Byte) :
    AlikeBut h k (s.readPrimed reg len) (t.readPrimed reg len) := by
  refine ha.transfer .primeWr (.write Config.selectReg [reg, len]) fun r v w hv => ?_
  split
  · exact hv.raise stFail
  · exact hv.settle .primeSettle fun _ _ hu => hu.readRegisters reg len

theorem AlikeBut.writeRegisters (ha : AlikeBut h k s t) (reg : Byte) (data : List Byte) :
    AlikeBut h k (s.writeRegisters reg data) (t.writeRegisters reg data) := by
  refine ha.transfer .write (.write reg data) fun r v w hv => ?_
  split
  · exact hv.raise stFail
  · exact hv.settle .writeSettle fun _ _ hu => hu.respond [stOk]

/-- Two outcomes that are next states, and those alike. -/
def NextAlike (h k : HMode) (a b : Host.Outcome State Fault Refusal) : Prop :=
  ∃ s t, a = .next s ∧ b = .next t ∧ AlikeBut h k s t

theorem AlikeBut.execRdreg (ha : AlikeBut h k s t) (reg len : Byte) :
    NextAlike h k (execRdreg reg len s) (execRdreg reg len t) := by
  refine ⟨_, _, rfl, rfl, ha.cutPoint fun v w hv => ?_⟩
  split
  · exact hv.raise stFail
  · split
    · exact hv.readPrimed reg len
    · exact hv.readRegisters reg len

theorem AlikeBut.execWrreg (ha : AlikeBut h k s t) (reg : Byte) (data : List Byte) :
    NextAlike h k (execWrreg reg data s) (execWrreg reg data t) := by
  refine ⟨_, _, rfl, rfl, ha.cutPoint fun v w hv => ?_⟩
  split
  · exact hv.raise stFail
  · exact hv.writeRegisters reg data

/-- The operations that neither read nor write HMODE (rule R10). -/
def isModeFree : Instr → Bool
  | .bcd2bin _ => true
  | .bin2bcd _ => true
  | .hrdec _ => false
  | .hrenc _ => false
  | .coord _ _ _ _ _ _ => true
  | .fix3 _ _ _ => true
  | .rdreg _ _ => true
  | .wrreg _ _ => true
  | .setmode _ => false
  | .getst => false

/-- An operation that neither reads nor writes HMODE runs alike from states that are alike. -/
theorem AlikeBut.exec_of_isModeFree (ha : AlikeBut h k s t) {i : Instr} (hi : isModeFree i = true) :
    NextAlike h k (exec i s) (exec i t) := by
  cases i with
  | bcd2bin b => exact ⟨_, _, rfl, rfl, ha.finishCodec _ _ _⟩
  | bin2bcd v => exact ⟨_, _, rfl, rfl, ha.finishCodec _ _ _⟩
  | coord d0 d1 d2 d3 d4 d5 => exact ⟨_, _, rfl, rfl, ha.finishCodec _ _ _⟩
  | fix3 b0 b1 b2 => exact ⟨_, _, rfl, rfl, ha.finishCodec _ _ _⟩
  | rdreg reg len => exact ha.execRdreg reg len
  | wrreg reg data => exact ha.execWrreg reg data
  | hrdec b => cases hi
  | hrenc b => cases hi
  | setmode m => cases hi
  | getst => cases hi

end AlikeBut

end Sys2Proof.Machine

namespace Sys2Proof.Safety

open Machine

/-! #### The unset mode bit: HMODE.M while HMODE.V = 0 (rule R19) -/

section UnsetMode

variable {s t : State}

theorem SameOutcome.refl (a : Host.Outcome State Fault Refusal) : SameOutcome a a := by
  cases a with
  | next s => exact .inl rfl
  | fault r => rfl
  | refused r => rfl

/-- Outcomes that are the same are next states that differ in the unset bit, or one and the same outcome. -/
theorem SameOutcome.next_or_eq {a b : Host.Outcome State Fault Refusal} (h : SameOutcome a b) :
    (∃ s t, a = .next s ∧ b = .next t ∧ SameButUnsetMode s t) ∨ a = b := by
  cases a with
  | next s =>
    cases b with
    | next t => exact h.elim (fun e => .inr (congrArg _ e)) fun hst => .inl ⟨s, t, rfl, rfl, hst⟩
    | _ => exact h.elim
  | fault r =>
    cases b with
    | fault r' => exact .inr (congrArg _ h)
    | _ => exact h.elim
  | refused r =>
    cases b with
    | refused r' => exact .inr (congrArg _ h)
    | _ => exact h.elim

/-- States alike but for an unset bit agree in HMODE.V too. -/
theorem SameButUnsetMode.unset_right (h : SameButUnsetMode s t) : t.hmode.v = false := by
  rw [h.2]
  exact h.1

theorem SameButUnsetMode.alikeBut (h : SameButUnsetMode s t) : AlikeBut s.hmode t.hmode s t := by
  obtain ⟨-, ht⟩ := h
  have hmode : t.hmode = { s.hmode with m := t.hmode.m } := congrArg State.hmode ht
  exact .inr ⟨rfl, by rw [hmode]; exact ht⟩

/-- Next states that are alike, neither run holding a mode, are the same outcome. -/
theorem sameOutcome_of_nextAlike {h k : HMode} (hh : h.v = false) (hk : k.v = false)
    {a b : Host.Outcome State Fault Refusal} (hab : NextAlike h k a b) : SameOutcome a b := by
  obtain ⟨s, t, rfl, rfl, rfl | ⟨rfl, rfl⟩⟩ := hab
  · exact .refl _
  · have hmode : k = ⟨s.hmode.v, k.m⟩ := by rw [hh, ← hk]
    exact .inr ⟨hh, congrArg (fun m => { s with hmode := m }) hmode⟩

/-- Every operation comes to the same, whatever the unset bit: the hour operations are refused before they look at it,
SETMODE overwrites it, GETST answers 0xFF in its place, and the others do not read HMODE (rules R10, R61, R109). -/
theorem SameButUnsetMode.sameOutcome_exec (h : SameButUnsetMode s t) (i : Instr) : SameOutcome (exec i s) (exec i t) := by
  have same {a b : Host.Outcome State Fault Refusal} (hab : NextAlike s.hmode t.hmode a b) : SameOutcome a b :=
    sameOutcome_of_nextAlike h.1 h.unset_right hab
  cases i with
  | hrdec b =>
    rw [exec_hrdec_of_unset h.1, exec_hrdec_of_unset h.unset_right]
    exact same ⟨_, _, rfl, rfl, h.alikeBut.raise stNomode⟩
  | hrenc b =>
    rw [exec_hrenc_of_unset h.1, exec_hrenc_of_unset h.unset_right]
    exact same ⟨_, _, rfl, rfl, h.alikeBut.raise stNomode⟩
  | setmode m =>
    rw [h.2]
    exact .inl rfl
  | getst =>
    obtain ⟨hflags, -⟩ := h.alikeBut.fields
    rw [exec_getst_of_unset h.1, exec_getst_of_unset h.unset_right, State.readFlags, State.readFlags, hflags]
    exact same ⟨_, _, rfl, rfl, h.alikeBut.respond _⟩
  | _ => exact same (h.alikeBut.exec_of_isModeFree rfl)

/-- Every step comes to the same, whatever the unset bit: what the block meets at its inputs does not depend on HMODE,
and a reset or CANCEL wipes the bit out. -/
theorem SameButUnsetMode.sameOutcome_step (h : SameButUnsetMode s t) : SameOutcome (step s) (step t) := by
  have accepted (cut : Option Nat) (rest : List HostInput) :
      SameButUnsetMode (s.accept cut rest) (t.accept cut rest) :=
    ⟨h.1, congrArg (State.accept cut rest) h.2⟩
  obtain ⟨-, hpseq, -, hhost, -⟩ := h.alikeBut.fields
  rcases s.fetch_cases with ⟨hq, hi, -⟩ | ⟨k, rest, hq, hi, -⟩ | ⟨F, c, rest, hq, hi, -⟩ | ⟨rest, hq, hi, -⟩ | ⟨hq, hi, -⟩
  · rw [step_of_no_input hq hi, step_of_no_input (hpseq ▸ hq) (hhost ▸ hi)]
    exact .inr h
  · rw [step_of_signal hq hi, step_of_signal (hpseq ▸ hq) (hhost ▸ hi), h.2]
    exact .inl rfl
  · cases hd : decode F with
    | error e =>
      rw [step_of_decode_error hq hi hd, step_of_decode_error (hpseq ▸ hq) (hhost ▸ hi) hd]
      exact .inr ⟨h.1, congrArg State.illegalFrame (accepted c rest).2⟩
    | ok i =>
      rw [step_of_decode_ok hq hi hd, step_of_decode_ok (hpseq ▸ hq) (hhost ▸ hi) hd]
      exact (accepted c rest).sameOutcome_exec i
  · rw [step_of_signal_while_waiting hq hi, step_of_signal_while_waiting (hpseq ▸ hq) (hhost ▸ hi), h.2]
    exact .inl rfl
  · rw [step_of_stuck hq hi, step_of_stuck (hpseq ▸ hq) (hhost ▸ hi)]
    rfl

/-- Every run comes to the same, by induction on its length. -/
theorem SameButUnsetMode.sameOutcome_run (h : SameButUnsetMode s t) (n : Nat) :
    SameOutcome (core.run n s) (core.run n t) := by
  induction n generalizing s t with
  | zero => exact .inr h
  | succ n ih =>
    rcases h.sameOutcome_step.next_or_eq with ⟨u, v, hs, ht, huv⟩ | heq
    · rw [run_succ_of_step hs, run_succ_of_step ht]
      exact ih huv
    · rw [run_succ_congr heq]
      exact .refl _

end UnsetMode

end Sys2Proof.Safety

namespace Sys2Proof

open Machine Safety

/-- Settles O38: the discipline is kept field by field, by an operation's five ways to end. -/
theorem stepKeepsTheHostDiscipline : Obligations.StepKeepsTheHostDiscipline := by
  intro s t hs h
  exact hs.step h

/-- Settles O41: one step keeps two runs alike, and a run is its steps. -/
theorem unsetModeBitIsUnobservable : Obligations.UnsetModeBitIsUnobservable := by
  intro n s t h
  exact h.sameOutcome_run n

/-- Settles O30: a step that returns a response has accepted a frame, and neither an illegal one nor a failing operation
writes HMODE or FLAGS. -/
theorem failureChangesNoState : Obligations.FailureChangesNoState := by
  intro s t st rest h hr hst
  rcases step_next_cases h with ⟨-, rfl⟩ | ⟨_, rfl⟩ | ⟨F, c, others, e, -, -, -, rfl⟩ | ⟨F, c, others, i, -, -, -, he⟩
  · exact absurd hr (not_returned_of_received_eq rfl)
  · exact absurd hr (not_returned_of_received_eq rfl)
  · exact ⟨rfl, rfl⟩
  · exact exec_failure_keeps_registers (s := s.accept c others) he hr hst

/-- Settles O31: of an operation's five ways to end only SETMODE's writes HMODE, a cut apart. -/
theorem onlySetmodeWritesHmode : Obligations.OnlySetmodeWritesHmode := by
  intro i s t h hcut hi
  rcases exec_next_cases h with ⟨_, _, _, -, -, rfl⟩ | ⟨-, rfl⟩ | ⟨m, rfl, -⟩ | ⟨-, rfl⟩ | ⟨_, -, hend⟩
  · rfl
  · rfl
  · exact absurd rfl (hi m)
  · rfl
  · exact (hend.keeps_registers hcut).1

/-- Settles O32: of an operation's five ways to end only a codec's writes FLAGS, a cut apart, and what it
writes is made of its operand and the mode alone. -/
theorem onlyCodecsWriteFlags : Obligations.OnlyCodecsWriteFlags := by
  intro i s t h
  constructor
  · intro hi hcut
    rcases exec_next_cases h with ⟨_, _, _, hc, -⟩ | ⟨-, rfl⟩ | ⟨m, -, rfl⟩ | ⟨-, rfl⟩ | ⟨_, -, hend⟩
    · cases hi.symm.trans hc
    · rfl
    · rfl
    · rfl
    · exact (hend.keeps_registers hcut).2
  · intro hi
    rcases exec_codec_cases hi s with he | ⟨rng, inv, r, -, he⟩
    · obtain rfl : t = s.raise stNomode := Host.Outcome.next.inj (h.symm.trans (he s.flags))
      exact .inl rfl
    · obtain rfl : t = s.finishCodec rng inv r := Host.Outcome.next.inj (h.symm.trans (he s.flags))
      exact .inr ⟨packFlags_reserved rng inv, fun f => ⟨_, he f, rfl⟩⟩

/-- Settles O35: the two runs stay alike in everything but HMODE. -/
theorem modeFreeOperationsIgnoreHmode : Obligations.ModeFreeOperationsIgnoreHmode := by
  intro i s t h hdec henc hset hget ht
  have hi : isModeFree i = true := by
    cases i with
    | hrdec b => exact absurd rfl (hdec b)
    | hrenc b => exact absurd rfl (henc b)
    | setmode m => exact absurd rfl (hset m)
    | getst => exact absurd rfl hget
    | _ => rfl
  obtain ⟨t', u, ht', hu, ha⟩ := (alikeBut_setHmode s h).exec_of_isModeFree hi
  obtain rfl : t = t' := Host.Outcome.next.inj (ht.symm.trans ht')
  exact ⟨u, hu, ha.fields⟩

/-- Settles O9: the registers are read off; with no mode held the hour operations are refused and GETST answers 0xFF. -/
theorem resetStateIsAsStated : Obligations.ResetStateIsAsStated := by
  refine ⟨⟨rfl, rfl, rfl, rfl⟩, exec_getst_of_unset rfl, fun b => ⟨?_, ?_⟩⟩
  · exact exec_hrdec_of_unset rfl b
  · exact exec_hrenc_of_unset rfl b

/-- Settles O39: nothing has been seen downstream and nothing returned. -/
theorem resetMeetsBothDisciplines : Obligations.ResetMeetsBothDisciplines where
  left :=
    { legal := by simp [State.reset]
      primed := by simp [PrimedReads, State.reset]
      settles := by simp [SettlesFollowWrites, State.reset]
      traceIsTail := ⟨[], rfl⟩ }
  right :=
    { reserved := rfl
      responses := by simp [State.reset]
      sequencer := .inl rfl }

end Sys2Proof

/-! ### The family of 20_memory.md: the downstream port (rules R20 to R39) -/

namespace Sys2Proof

/-- What the operand bytes decode to can be written in a frame again: WRREG's data are as many as its length byte says
(rules R42, R44). -/
theorem wellFormed_of_decodeOperands {op : Op} {rest : List Byte} {i : Instr} (h : decodeOperands op rest = .ok i) :
    i.wellFormed = true := by
  cases op with
  | wrreg =>
    simp only [decodeOperands] at h
    split at h
    · next len data =>
      split at h
      · next hlen =>
        cases h
        have := len.isLt
        exact decide_eq_true (by omega)
      · cases h
    · cases h
  | setmode =>
    simp only [decodeOperands, decodeMode] at h
    split at h
    · split at h
      · cases h
        rfl
      · split at h
        · cases h
          rfl
        · cases h
    · cases h
  | _ =>
    simp only [decodeOperands] at h
    split at h
    · cases h
      rfl
    · cases h

/-- A frame the decoder accepts is an instruction a frame can express (rules R40, R44). -/
theorem wellFormed_of_decode {F : List Byte} {i : Instr} (h : decode F = .ok i) : i.wellFormed = true := by
  obtain ⟨op, rest, -, ho⟩ := decode_ok_cases h
  exact wellFormed_of_decodeOperands ho

end Sys2Proof

namespace Sys2Proof.Safety

open Machine

/-! #### What a step adds downstream and at the host's side -/

/-- The events one operation can cause, whole or cut (rules R69, R71, R112). The priming write alone, and with its settle,
are writes like any other. -/
inductive OperationEvents : List BusEvent → Prop where
  | none : OperationEvents []
  | write (a : Byte) (data : List Byte) (nonempty : 1 ≤ data.length) (fits : data.length ≤ 255) :
      OperationEvents [.write a data]
  | settledWrite (a : Byte) (data : List Byte) (nonempty : 1 ≤ data.length) (fits : data.length ≤ 255) :
      OperationEvents [.write a data, .settle]
  | plainRead (a n : Byte) (nonempty : 1 ≤ n.toNat) (outside : ¬ (0x30 ≤ a.toNat ∧ a.toNat ≤ 0x79)) :
      OperationEvents [.read a n]
  | primedRead (a n : Byte) (nonempty : 1 ≤ n.toNat) :
      OperationEvents [.write Config.selectReg [a, n], .settle, .read a n]

theorem operationEvents_of_rdregEvents {reg len : Byte} {evs : List BusEvent} (h : rdregEvents reg len evs) :
    OperationEvents evs := by
  rcases h with rfl | ⟨hlen, ⟨hout, rfl⟩ | ⟨-, rfl | rfl | rfl⟩⟩
  · exact .none
  · refine .plainRead reg len (by omega) ?_
    rw [← primedRange_iff, hout]
    simp
  · exact .write _ _ (by simp) (by simp)
  · exact .settledWrite _ _ (by simp) (by simp)
  · exact .primedRead reg len (by omega)

theorem operationEvents_of_wrregEvents {reg : Byte} {data : List Byte} {evs : List BusEvent}
    (hfits : data.length ≤ 255) (h : wrregEvents reg data evs) : OperationEvents evs := by
  rcases h with rfl | ⟨hlen, rfl | rfl⟩
  · exact .none
  · exact .write reg data (by omega) hfits
  · exact .settledWrite reg data (by omega) hfits

/-- The operation's trace is the end of what the agent has seen (rule R36). -/
def TraceIsTail (s : State) : Prop := ∃ earlier, s.downstream.log = earlier ++ s.trace

/-- From `s` to `t` the agent has seen `evs` more, the host has received at most one response more, and the trace has
stayed the end of the agent's record (rules R3, R36). -/
structure Adds (s t : State) (evs : List BusEvent) : Prop where
  log : t.downstream.log = s.downstream.log ++ evs
  answers : ∃ rs : List (List Byte), t.host.received = s.host.received ++ rs ∧ rs.length ≤ 1
  tail : TraceIsTail s → TraceIsTail t

section StepAdds

variable {s t : State}

theorem traceIsTail_of_trace_nil (h : s.trace = []) : TraceIsTail s := ⟨s.downstream.log, by simp [h]⟩

theorem Adds.refl (s : State) : Adds s s [] := ⟨by simp, ⟨[], by simp⟩, id⟩

/-- A register operation adds its events, however it ends. -/
theorem adds_of_regEnd {evs : List BusEvent} {ok : List Byte → Prop} {waits : Pseq → Prop}
    (h : RegEnd s t evs ok waits) : Adds s t evs := by
  obtain ⟨hlog, -, hend⟩ := h.fields
  have grows (ht : t.trace = s.trace ++ evs) : TraceIsTail s → TraceIsTail t := by
    rintro ⟨earlier, he⟩
    exact ⟨earlier, by rw [hlog, he, ht, List.append_assoc]⟩
  rcases hend with ⟨-, -, -, htrace, hrec, -⟩ | ⟨r, -, -, -, -, htrace, hrec⟩ | ⟨-, -, -, htrace, hrec⟩
  · exact ⟨hlog, ⟨[], by simp [hrec]⟩, fun _ => traceIsTail_of_trace_nil htrace⟩
  · exact ⟨hlog, ⟨[r], by simp [hrec]⟩, grows htrace⟩
  · exact ⟨hlog, ⟨[], by simp [hrec]⟩, grows htrace⟩

/-- Every operation a frame can express adds the events of one operation. -/
theorem exec_adds {i : Instr} (hw : i.wellFormed = true) (h : exec i s = .next t) :
    ∃ evs, OperationEvents evs ∧ Adds s t evs := by
  cases hi : isRegAccess i with
  | false =>
    obtain ⟨m, f, r, he⟩ := exec_of_not_isRegAccess hi s
    obtain rfl := Host.Outcome.next.inj (h.symm.trans (he s.downstream))
    exact ⟨[], .none, by simp, ⟨[r], rfl, le_rfl⟩, id⟩
  | true =>
    cases i with
    | rdreg reg len =>
      obtain ⟨u, evs, hu, hevs, hend⟩ := execRdreg_cases reg len s
      obtain rfl : t = u := Host.Outcome.next.inj (h.symm.trans hu)
      exact ⟨evs, operationEvents_of_rdregEvents hevs, adds_of_regEnd hend⟩
    | wrreg reg data =>
      obtain ⟨u, evs, hu, hevs, hend⟩ := execWrreg_cases reg data s
      obtain rfl : t = u := Host.Outcome.next.inj (h.symm.trans hu)
      exact ⟨evs, operationEvents_of_wrregEvents (of_decide_eq_true hw) hevs, adds_of_regEnd hend⟩
    | _ => cases hi

/-- What is added once a frame is accepted is added by the step that accepts it: accepting adds nothing. -/
theorem Adds.of_accept {c : Option Nat} {rest : List HostInput} {evs : List BusEvent}
    (h : Adds (s.accept c rest) t evs) : Adds s t evs where
  log := h.log
  answers := h.answers
  tail _ := h.tail (traceIsTail_of_trace_nil rfl)

/-- Every step adds the events of at most one operation (rules R3, R36). -/
theorem step_adds (h : step s = .next t) : ∃ evs, OperationEvents evs ∧ Adds s t evs := by
  rcases step_next_cases h with ⟨-, rfl⟩ | ⟨rest, rfl⟩ | ⟨F, c, rest, e, -, -, -, rfl⟩ | ⟨F, c, rest, i, -, -, hd, he⟩
  · exact ⟨[], .none, .refl t⟩
  · exact ⟨[], .none, by simp, ⟨[], by simp⟩, fun _ => traceIsTail_of_trace_nil rfl⟩
  · exact ⟨[], .none, by simp [State.illegalFrame], ⟨[[stIllegal]], rfl, le_rfl⟩, fun _ => traceIsTail_of_trace_nil rfl⟩
  · obtain ⟨evs, hevs, hadds⟩ := exec_adds (wellFormed_of_decode hd) he
    exact ⟨evs, hevs, hadds.of_accept⟩

end StepAdds

/-! #### The discipline of the port, one event at a time -/

/-- A record of downstream events that keeps the discipline of the port. -/
structure LogOk (log : List BusEvent) : Prop where
  legal : ∀ e ∈ log, LegalEvent e
  primed : PrimedReads log
  settles : SettlesFollowWrites log

/-- The event may come next after the record `log`: the discipline, said of the last event alone (rules R22, R24, R25, R27). -/
def MayFollow (log : List BusEvent) : BusEvent → Prop
  | .write _ data => 1 ≤ data.length ∧ data.length ≤ 255
  | .settle => ∃ before a data, log = before ++ [.write a data]
  | .read a n => 1 ≤ n.toNat ∧ (0x30 ≤ a.toNat → a.toNat ≤ 0x79 →
      ∃ before, log = before ++ [.write Config.selectReg [a, n], .settle])

/-- An event of a record with one event more is that last event, or it stands where it stood in the record. -/
theorem append_singleton_split {log pre post : List BusEvent} {e x : BusEvent} (h : log ++ [e] = pre ++ x :: post) :
    (pre = log ∧ x = e) ∨ ∃ post', log = pre ++ x :: post' := by
  rcases post.eq_nil_or_concat with rfl | ⟨post', y, rfl⟩
  · obtain ⟨hpre, hx⟩ := List.append_inj' h rfl
    exact .inl ⟨hpre.symm, (List.singleton_inj.mp hx).symm⟩
  · rw [List.concat_eq_append, ← List.cons_append, ← List.append_assoc] at h
    exact .inr ⟨post', (List.append_inj' h rfl).1⟩

section PortDiscipline

variable {log evs : List BusEvent} {s t : State}

theorem MayFollow.legalEvent {e : BusEvent} (h : MayFollow log e) : LegalEvent e := by
  cases e with
  | write a data => exact h
  | settle => trivial
  | read a n => exact h.1

/-- One more event that may come next keeps the discipline. -/
theorem LogOk.snoc (h : LogOk log) {e : BusEvent} (he : MayFollow log e) : LogOk (log ++ [e]) where
  legal x hx := by
    rcases List.mem_append.mp hx with hold | hnew
    · exact h.legal x hold
    · exact List.mem_singleton.mp hnew ▸ he.legalEvent
  primed pre a n post hsplit := by
    rcases append_singleton_split hsplit with ⟨rfl, rfl⟩ | ⟨post', hold⟩
    · exact he.2
    · exact h.primed pre a n post' hold
  settles pre post hsplit := by
    rcases append_singleton_split hsplit with ⟨rfl, rfl⟩ | ⟨post', hold⟩
    · exact he
    · exact h.settles pre post' hold

theorem LogOk.write (h : LogOk log) (a : Byte) {data : List Byte} (hsome : 1 ≤ data.length)
    (hfits : data.length ≤ 255) : LogOk (log ++ [.write a data]) :=
  h.snoc (e := .write a data) ⟨hsome, hfits⟩

/-- A write's settle comes next after the write (rule R27). -/
theorem LogOk.settledWrite (h : LogOk log) (a : Byte) {data : List Byte} (hsome : 1 ≤ data.length)
    (hfits : data.length ≤ 255) : LogOk (log ++ [.write a data, .settle]) := by
  rw [List.append_cons]
  exact (h.write a hsome hfits).snoc (e := .settle) ⟨log, a, data, rfl⟩

/-- A read comes next after its own priming write and settle (rules R22, R67). -/
theorem LogOk.primedRead (h : LogOk log) (a : Byte) {n : Byte} (hn : 1 ≤ n.toNat) :
    LogOk (log ++ [.write Config.selectReg [a, n], .settle, .read a n]) := by
  have hprimed : LogOk (log ++ [.write Config.selectReg [a, n], .settle]) :=
    h.settledWrite Config.selectReg (by simp) (by simp)
  simpa using hprimed.snoc (e := .read a n) ⟨hn, fun _ _ => ⟨log, rfl⟩⟩

/-- The events of one operation keep the discipline. -/
theorem LogOk.operationEvents (h : LogOk log) (hevs : OperationEvents evs) : LogOk (log ++ evs) := by
  cases hevs with
  | none => simpa using h
  | write a data hsome hfits => exact h.write a hsome hfits
  | settledWrite a data hsome hfits => exact h.settledWrite a hsome hfits
  | plainRead a n hn hout => exact h.snoc (e := .read a n) ⟨hn, fun hlo hhi => absurd ⟨hlo, hhi⟩ hout⟩
  | primedRead a n hn => exact h.primedRead a hn

theorem PortOk.logOk (h : PortOk s) : LogOk s.downstream.log := ⟨h.legal, h.primed, h.settles⟩

theorem LogOk.portOk (h : LogOk s.downstream.log) (htail : TraceIsTail s) : PortOk s :=
  ⟨h.legal, h.primed, h.settles, htail⟩

/-- Every step keeps the discipline. -/
theorem PortOk.step (hs : PortOk s) (h : step s = .next t) : PortOk t := by
  obtain ⟨evs, hevs, hadds⟩ := step_adds h
  have hlog : LogOk t.downstream.log := hadds.log ▸ hs.logOk.operationEvents hevs
  exact hlog.portOk (hadds.tail hs.traceIsTail)

end PortDiscipline

/-! #### The bus under exclusive ownership (rule R39) -/

/-- Where nothing but the block accesses the device, the bus carries the block's events and nothing else. -/
theorem ExclusiveOwnership.eq_map_blockEvents {bus : List (Master × BusEvent)} (h : ExclusiveOwnership bus) :
    bus = (blockEvents bus).map (Master.block, ·) := by
  induction bus with
  | nil => rfl
  | cons x bus ih =>
    obtain ⟨m, e⟩ := x
    obtain ⟨rfl, hbus⟩ := List.forall_mem_cons.mp h
    exact congrArg ((Master.block, e) :: ·) (ih hbus)

theorem blockEvents_append_block_cons (before after : List (Master × BusEvent)) (e : BusEvent) :
    blockEvents (before ++ (.block, e) :: after) = blockEvents before ++ e :: blockEvents after := by
  simp [blockEvents]

end Sys2Proof.Safety

namespace Sys2Proof

open Machine Safety

/-- Settles O37: a step appends one operation's events, each of which may come next after those before it. -/
theorem stepKeepsThePortDiscipline : Obligations.StepKeepsThePortDiscipline := by
  intro s t hs h
  exact hs.step h

/-- Settles O36: the counts are read off the events one operation can cause. -/
theorem stepAddsOneOperationsEvents : Obligations.StepAddsOneOperationsEvents := by
  intro s t h
  obtain ⟨evs, hevs, hlog, ⟨rs, hrec, hrs⟩, -⟩ := step_adds h
  refine ⟨evs, rs, hlog, hrec, hrs, ?_⟩
  cases hevs with
  | none => simp
  | write a data => simp
  | settledWrite a data => simp
  | plainRead a n => simp
  | primedRead a n => simp

/-- Settles O40: under exclusive ownership what stands before the read on the bus is what stands before it in the
agent's record, and there the discipline holds. -/
theorem primingWindowIsExclusive : Obligations.PrimingWindowIsExclusive := by
  rintro s t _ hs h hown hlog before m a n after rfl hlo hhi
  obtain ⟨hbefore, hrest⟩ := List.forall_mem_append.mp hown
  obtain rfl : m = .block := hrest _ List.mem_cons_self
  rw [blockEvents_append_block_cons] at hlog
  obtain ⟨earlier, he⟩ := (hs.step h).primed _ a n _ hlog.symm hlo hhi
  refine ⟨earlier.map (Master.block, ·), ?_⟩
  calc before
      = (blockEvents before).map (Master.block, ·) := ExclusiveOwnership.eq_map_blockEvents hbefore
    _ = _ := by rw [he, List.map_append]; rfl

end Sys2Proof

/-! ### The family of 30_encoding.md: frames, the decoder and the encoder (rules R40 to R50) -/

namespace Sys2Proof

open Machine Safety

/-! #### The decoder and the encoder are inverse -/

theorem decodeOperands_wrreg_of_length {len : Byte} {data : List Byte} (h : data.length = len.toNat) (reg : Byte) :
    decodeOperands .wrreg (reg :: len :: data) = .ok (.wrreg reg data) := if_pos h

/-- WRREG's length byte holds the number of data bytes it was made from (rule R50). -/
theorem byteOf_length_toNat {data : List Byte} (h : data.length ≤ 255) : (byteOf data.length).toNat = data.length :=
  Nat.mod_eq_of_lt (by omega)

/-- A well-formed instruction's frame decodes to it. -/
theorem decode_encode {i : Instr} (h : i.wellFormed = true) : decode (encode i) = .ok i := by
  cases i with
  | wrreg reg data =>
    rw [encode, decode_opcode_cons]
    exact decodeOperands_wrreg_of_length (byteOf_length_toNat (of_decide_eq_true h)).symm reg
  | setmode m =>
    cases m with
    | hour12 => rfl
    | hour24 => rfl
  | _ => rfl

/-- SETMODE's operand byte is the one its mode is written as (rule R45). -/
theorem encode_of_decodeMode {m : Byte} {i : Instr} (h : decodeMode m = .ok i) : encode i = [opcode .setmode, m] := by
  simp only [decodeMode] at h
  split at h
  · next hm =>
    cases h
    rw [hm]
    rfl
  · split at h
    · next hm =>
      cases h
      rw [hm]
      rfl
    · cases h

/-- The operand bytes an operation accepts are those its instruction is written with. -/
theorem encode_of_decodeOperands {op : Op} {rest : List Byte} {i : Instr} (h : decodeOperands op rest = .ok i) :
    encode i = opcode op :: rest := by
  cases op with
  | wrreg =>
    simp only [decodeOperands] at h
    split at h
    · split at h
      · next hlen =>
        cases h
        simp [encode, byteOf, hlen]
      · cases h
    · cases h
  | setmode =>
    simp only [decodeOperands] at h
    split at h
    · exact encode_of_decodeMode h
    · cases h
  | _ =>
    simp only [decodeOperands] at h
    split at h
    · cases h
      rfl
    · cases h

/-- What decodes to an instruction is that instruction's frame. -/
theorem encode_of_decode {F : List Byte} {i : Instr} (h : decode F = .ok i) : encode i = F := by
  obtain ⟨op, rest, rfl, ho⟩ := decode_ok_cases h
  exact encode_of_decodeOperands ho

/-! #### The frames the decoder refuses -/

/-- A SETMODE frame of the right length whose operand is above 1 (rule R46 d). -/
def BadModeFrame (F : List Byte) : Prop := ∃ m : Byte, F = [opcode .setmode, m] ∧ 1 < m.toNat

theorem decodeMode_error {m : Byte} {e : DecodeError} (h : decodeMode m = .error e) : 1 < m.toNat := by
  simp only [decodeMode] at h
  split at h
  · cases h
  · split at h
    · cases h
    · bv_omega

/-- Operand bytes as many as rule R44 asks for decode, SETMODE's bad operand apart. -/
theorem decodeOperands_ok_of_expectedLength : ∀ {op : Op} {rest : List Byte},
    expectedLength (opcode op :: rest) = some (rest.length + 1) →
    (∃ i, decodeOperands op rest = .ok i) ∨ BadModeFrame (opcode op :: rest)
  | .bcd2bin, [_], _ => .inl ⟨_, rfl⟩
  | .bin2bcd, [_], _ => .inl ⟨_, rfl⟩
  | .hrdec, [_], _ => .inl ⟨_, rfl⟩
  | .hrenc, [_], _ => .inl ⟨_, rfl⟩
  | .coord, [_, _, _, _, _, _], _ => .inl ⟨_, rfl⟩
  | .fix3, [_, _, _], _ => .inl ⟨_, rfl⟩
  | .rdreg, [_, _], _ => .inl ⟨_, rfl⟩
  | .wrreg, reg :: len :: data, h => by
    have hlen : 3 + len.toNat = data.length + 2 + 1 := Option.some.inj h
    exact .inl ⟨_, decodeOperands_wrreg_of_length (by omega) reg⟩
  | .setmode, [m], _ =>
    match hm : decodeMode m with
    | .ok i => .inl ⟨i, hm⟩
    | .error _ => .inr ⟨m, rfl, decodeMode_error hm⟩
  | .getst, [], _ => .inl ⟨_, rfl⟩

/-- A refused frame has not the length rule R44 gives it, if it gives one, or is SETMODE with a bad operand. -/
theorem decode_error_cases {F : List Byte} {e : DecodeError} (h : decode F = .error e) :
    expectedLength F ≠ some F.length ∨ BadModeFrame F := by
  by_cases hlen : expectedLength F = some F.length
  · refine .inr ?_
    cases F with
    | nil => cases hlen
    | cons b rest =>
      cases ho : opOf b with
      | none => simp [expectedLength, ho] at hlen
      | some op =>
        obtain rfl := opcode_of_opOf ho
        rw [decode_opcode_cons] at h
        rcases decodeOperands_ok_of_expectedLength hlen with ⟨i, hi⟩ | hmode
        · cases hi.symm.trans h
        · exact hmode
  · exact .inl hlen

/-- A byte that selects no operation is none of the ten opcodes (rule R43). -/
theorem toNat_notMem_opcodes_of_opOf_none {b : Byte} (h : opOf b = none) :
    b.toNat ∉ allOps.map fun op => (opcode op).toNat := by
  intro hm
  obtain ⟨op, -, hop⟩ := List.mem_map.mp hm
  rw [← BitVec.eq_of_toNat_eq hop, opOf_opcode] at h
  cases h

/-- A frame that has not the length rule R44 gives it, or is given none, is illegal (rule R46 a to c). -/
theorem illegalFrame_of_expectedLength_ne {F : List Byte} (h : expectedLength F ≠ some F.length) : IllegalFrame F := by
  cases F with
  | nil => exact .inl rfl
  | cons b rest =>
    cases ho : opOf b with
    | none => exact .inr (.inl ⟨b, rest, rfl, toNat_notMem_opcodes_of_opOf_none ho⟩)
    | some op =>
      obtain rfl := opcode_of_opOf ho
      cases op with
      | wrreg =>
        match rest with
        | [] => simp [IllegalFrame, opcode]
        | [_] => simp [IllegalFrame, opcode]
        | _ :: len :: data =>
          simp [expectedLength] at h
          simp [IllegalFrame, opcode]
          omega
      | _ =>
        simp [expectedLength] at h
        simp [IllegalFrame, opcode]
        omega

theorem BadModeFrame.illegalFrame {F : List Byte} (h : BadModeFrame F) : IllegalFrame F := by
  obtain ⟨m, rfl, hm⟩ := h
  simp [IllegalFrame, opcode, hm]

/-- No instruction's frame is illegal. -/
theorem not_illegalFrame_encode {i : Instr} (h : i.wellFormed = true) : ¬ IllegalFrame (encode i) := by
  cases i with
  | wrreg reg data =>
    have hlen := byteOf_length_toNat (of_decide_eq_true h)
    simp [IllegalFrame, encode, opcode, hlen]
    omega
  | setmode m =>
    cases m with
    | hour12 => simp [IllegalFrame, encode, opcode, modeByte]
    | hour24 => simp [IllegalFrame, encode, opcode, modeByte]
  | _ => simp [IllegalFrame, encode, opcode]

/-- A refused frame is one of rule R46's list. -/
theorem illegalFrame_of_decode_error {F : List Byte} {e : DecodeError} (h : decode F = .error e) : IllegalFrame F := by
  rcases decode_error_cases h with hlen | hmode
  · exact illegalFrame_of_expectedLength_ne hlen
  · exact hmode.illegalFrame

/-- A frame of rule R46's list is refused, for it is no instruction's frame. -/
theorem decode_error_of_illegalFrame {F : List Byte} (h : IllegalFrame F) : ∃ e, decode F = .error e := by
  cases hd : decode F with
  | error e => exact ⟨e, rfl⟩
  | ok i =>
    rw [← encode_of_decode hd] at h
    exact absurd h (not_illegalFrame_encode (wellFormed_of_decode hd))

end Sys2Proof

namespace Sys2Proof.Machine

open Safety

/-! #### RDREG's response -/

/-- Whatever ends an RDREG, what it returned is a response rule R69 lists. -/
theorem exec_rdreg_returned {reg len : Byte} {s t : State} {r : List Byte} (h : exec (.rdreg reg len) s = .next t)
    (hr : Returned s t r) : ∃ evs, rdregResponse len evs r := by
  obtain ⟨t', evs, ht', -, hend⟩ := execRdreg_cases reg len s
  obtain rfl : t' = t := Host.Outcome.next.inj (ht'.symm.trans h)
  obtain ⟨-, -, ⟨-, -, -, -, hrec, -⟩ | ⟨r', hr', -, -, -, -, hrec⟩ | ⟨-, -, -, -, hrec⟩⟩ := hend.fields
  · exact absurd hr (not_returned_of_received_eq hrec)
  · obtain rfl : r' = r := List.singleton_inj.mp (List.append_cancel_left (hrec.symm.trans hr))
    exact ⟨evs, hr'⟩
  · exact absurd hr (not_returned_of_received_eq hrec)

/-- Of RDREG's responses ST_OK alone brings data, and as many as asked for (rule R66). -/
theorem rdregResponse_ok_length {len : Byte} {evs : List BusEvent} {data : List Byte}
    (h : rdregResponse len evs (stOk :: data)) : data.length = len.toNat := by
  rcases h with hfail | ⟨-, ⟨hshort, -⟩ | ⟨data', hok, hlen⟩⟩
  · exact absurd (List.cons.inj hfail).1 (by decide)
  · exact absurd (List.cons.inj hshort).1 (by decide)
  · obtain rfl := (List.cons.inj hok).2
    exact hlen

end Sys2Proof.Machine

namespace Sys2Proof

open Machine Safety

/-- Settles O2: the opcode selects the operation, and its operand bytes are taken back one by one. -/
theorem decodeUndoesEncode : Obligations.DecodeUndoesEncode := by
  intro i h
  exact decode_encode h

/-- Settles O3: a decoded frame is an opcode and operand bytes, and its operation determines both. -/
theorem encodeUndoesDecode : Obligations.EncodeUndoesDecode := by
  intro F i h
  exact ⟨encode_of_decode h, wellFormed_of_decode h⟩

/-- Settles O4: a frame neither wrong in length nor in its mode decodes, and a decoded frame is its instruction's own. -/
theorem illegalFramesAreExactlyThose : Obligations.IllegalFramesAreExactlyThose := by
  intro F
  exact ⟨fun ⟨_, h⟩ => illegalFrame_of_decode_error h, decode_error_of_illegalFrame⟩

/-- Settles O25: of all RDREG can return only the full read opens with ST_OK. -/
theorem rdregSuccessCarriesLenBytes : Obligations.RdregSuccessCarriesLenBytes := by
  intro reg len s t data h hr
  obtain ⟨evs, hresp⟩ := exec_rdreg_returned h hr
  exact rdregResponse_ok_length hresp

/-- Settles O1: the decoder run on each of the seven frames. -/
theorem frameWordsDecode : Obligations.FrameWordsDecode :=
  ⟨rfl, rfl, rfl, rfl, rfl, rfl, rfl⟩

end Sys2Proof

/-! ### The family of 40_mode_status.md: SETMODE and GETST (rules R60, R61) -/

namespace Sys2Proof.Machine

open Safety

/-! #### Illegal frames at the idle block -/

/-- The idle block answers a frame of rule R46's list by `[ST_ILLEGAL]` and changes nothing else (rule R107). -/
theorem step_of_illegalFrame {s : State} {F : List Byte} {cut : Option Nat} {others : List HostInput}
    (hq : s.pseq = .idle) (hi : s.host.inputs = .frame F cut :: others) (h : IllegalFrame F) :
    step s = .next (answered (taken s cut others) [stIllegal]) := by
  obtain ⟨e, hd⟩ := decode_error_of_illegalFrame h
  exact step_of_decode_error hq hi hd

/-- Where rule R44 gives an operation's frames one length, frames of every other length are refused. -/
theorem otherLengthsIllegal_of_expectedLength {op : Op} {n : Nat}
    (h : ∀ rest, expectedLength (opcode op :: rest) = some (n + 1)) : OtherLengthsIllegal (opcode op) n := by
  intro s rest cut others hlen hq hi
  have hne : expectedLength (opcode op :: rest) ≠ some (opcode op :: rest).length := by
    simpa [h rest] using hlen.symm
  exact step_of_illegalFrame hq hi (illegalFrame_of_expectedLength_ne hne)

/-! #### What GETST returns -/

/-- FLAGS is read as its two low bits (rules R11, R61). -/
theorem State.readFlags_eq_ofNat (s : State) : s.readFlags = BitVec.ofNat 8 (s.flags.toNat % 4) := by
  apply BitVec.eq_of_toNat_eq
  have hmask : s.readFlags.toNat = s.flags.toNat % 4 := Nat.and_two_pow_sub_one_eq_mod s.flags.toNat 2
  rw [hmask, BitVec.toNat_ofNat]
  omega

/-- The MODE byte of rule R61: 0xFF with no mode held, else the held mode's number. -/
theorem modeStatusByte_eq (h : HMode) :
    modeStatusByte h = if h.v = false then 0xFF#8 else if h.m = .hour12 then 0x00#8 else 0x01#8 := by
  obtain ⟨v, m⟩ := h
  cases v with
  | false => rfl
  | true =>
    cases m with
    | hour12 => rfl
    | hour24 => rfl

end Sys2Proof.Machine

namespace Sys2Proof

open Machine Safety

/-- Settles O21: a bad operand or length makes an illegal frame, and the write to HMODE is SETMODE's only one. -/
theorem setmodeWritesHmode : Obligations.SetmodeWritesHmode := by
  refine ⟨otherLengthsIllegal_of_expectedLength (op := .setmode) fun _ => rfl, ?_, fun _ _ => rfl, ?_, ?_⟩
  · intro m s cut others hm hq hi
    have hbad : BadModeFrame [0x30#8, m] := ⟨m, rfl, hm⟩
    exact step_of_illegalFrame hq hi hbad.illegalFrame
  · exact decode_encode (i := .setmode .hour12) rfl
  · exact decode_encode (i := .setmode .hour24) rfl

/-- Settles O22: the response is FLAGS as read and the MODE byte, and the rest of the state stays. -/
theorem getstReadsFlagsAndMode : Obligations.GetstReadsFlagsAndMode := by
  refine ⟨decode_encode (i := .getst) rfl, otherLengthsIllegal_of_expectedLength (op := .getst) fun _ => rfl, ?_⟩
  intro s
  rw [← State.readFlags_eq_ofNat, ← modeStatusByte_eq]
  rfl

end Sys2Proof

/-! ### The family of 41_regaccess.md: the complete traces of RDREG and WRREG (rules R66 to R71) -/

namespace Sys2Proof.Machine

open Safety

/-! #### A register operation between two of its events -/

/-- The block inside the register operation begun in `s`: it stands at step `q` of the sequencer (rule R16), has issued
`evs`, and the agent is `d`. -/
def State.midOperation (s : State) (evs : List BusEvent) (q : Pseq) (d : Downstream) : State :=
  { afterEvents s evs d with pseq := q }

section

variable {s : State} {evs : List BusEvent} {q : Pseq} {d : Downstream}

theorem State.midOperation_nil (s : State) : s.midOperation [] s.pseq s.downstream = s := by
  simp [State.midOperation, afterEvents]

theorem State.midOperation_respond (r : List Byte) :
    (s.midOperation evs q d).respond r = answered (afterEvents s evs d) r := rfl

theorem State.midOperation_issue (q' : Pseq) (e : BusEvent) :
    (s.midOperation evs q d).issue q' e = s.midOperation (evs ++ [e]) q' (d.sees e) := by
  simp [State.midOperation, State.issue, afterEvents, Nat.sub_sub, Function.comp_def]

/-- No cut lands at the event after `evs` where none comes within one event more. -/
theorem State.midOperation_not_due {n : Nat} (hn : noCutWithin n s = true) (hlt : evs.length < n) :
    (s.midOperation evs q d).host.cut.map (· - 1) ≠ some 0 := by
  have hcut : (s.midOperation evs q d).host.cut.map (· - 1) = s.host.cut.map (· - (evs.length + 1)) :=
    cut_countdown s.host.cut evs.length 1
  rw [hcut]
  exact not_due_of_noCutWithin hn hlt

/-- An answered transfer is one event more (rules R24, R25). -/
theorem State.midOperation_transfer {n : Nat} (hn : noCutWithin n s = true) (hlt : evs.length < n) (q' : Pseq)
    {e : BusEvent} {r : BusReply} {d' : Downstream} (ha : (d.sees e).answer e = (some r, d')) :
    (s.midOperation evs q d).transfer q' e = .go r (s.midOperation (evs ++ [e]) q' d') := by
  rw [State.transfer_go (State.midOperation_not_due hn hlt) ha, State.midOperation_issue]
  rfl

/-- A settle is one event more, and the agent only sees it (rule R27). -/
theorem State.midOperation_settle {n : Nat} (hn : noCutWithin n s = true) (hlt : evs.length < n) (q' : Pseq) :
    (s.midOperation evs q d).settle q' = .go () (s.midOperation (evs ++ [.settle]) q' (d.sees .settle)) := by
  rw [State.settle_go (State.midOperation_not_due hn hlt), State.midOperation_issue]

/-! #### What follows the last answer -/

/-- The response RDREG makes of the read's answer (rule R66, step 3). -/
def readResponse (len : Byte) (r : BusReply) : List Byte :=
  if r.st ≠ 0 then [stFail] else if r.data.length < len.toNat then [stShort] else stOk :: r.data

/-- RDREG's read, after any events of its own. -/
theorem State.midOperation_readRegisters {n : Nat} (hn : noCutWithin n s = true) (hlt : evs.length < n)
    {reg len : Byte} {r : BusReply} {d' : Downstream}
    (ha : (d.sees (.read reg len)).answer (.read reg len) = (some r, d')) :
    (s.midOperation evs q d).readRegisters reg len =
      answered (afterEvents s (evs ++ [.read reg len]) d') (readResponse len r) := by
  rw [State.readRegisters, State.midOperation_transfer hn hlt .read ha, Phase.finish_go, readResponse]
  split
  · rfl
  · split
    · rfl
    · rfl

end

/-! #### RDREG and WRREG that begin -/

section

variable {s : State} {reg len : Byte} {data : List Byte}

/-- With no cut before its first event a register operation begins (rule R112). -/
theorem State.cutPoint_of_noCutWithin {n : Nat} (hn : noCutWithin n s = true) : s.cutPoint = .go () s := by
  have hnot := not_due_of_noCutWithin hn (Nat.zero_le n)
  exact State.cutPoint_go (by simpa using hnot)

theorem exec_rdreg_zero (hn : noCutWithin 0 s = true) (hl : len.toNat = 0) :
    exec (.rdreg reg len) s = .next (s.raise stFail) := by
  simp only [exec, execRdreg, State.cutPoint_of_noCutWithin hn, Phase.finish_go, if_pos hl]

theorem exec_rdreg_unprimed {n : Nat} (hn : noCutWithin n s = true) (hl : len.toNat ≠ 0)
    (hp : ¬ (0x30 ≤ reg.toNat ∧ reg.toNat ≤ 0x79)) :
    exec (.rdreg reg len) s = .next (s.readRegisters reg len) := by
  rw [← primedRange_iff] at hp
  simp only [exec, execRdreg, State.cutPoint_of_noCutWithin hn, Phase.finish_go, if_neg hl, if_neg hp]

theorem exec_rdreg_primed {n : Nat} (hn : noCutWithin n s = true) (hl : len.toNat ≠ 0)
    (hp : 0x30 ≤ reg.toNat ∧ reg.toNat ≤ 0x79) :
    exec (.rdreg reg len) s = .next (s.readPrimed reg len) := by
  rw [← primedRange_iff] at hp
  simp only [exec, execRdreg, State.cutPoint_of_noCutWithin hn, Phase.finish_go, if_neg hl, if_pos hp]

theorem exec_wrreg_zero (hn : noCutWithin 0 s = true) (hl : data.length = 0) :
    exec (.wrreg reg data) s = .next (s.raise stFail) := by
  simp only [exec, execWrreg, State.cutPoint_of_noCutWithin hn, Phase.finish_go, if_pos hl]

theorem exec_wrreg_some {n : Nat} (hn : noCutWithin n s = true) (hl : data.length ≠ 0) :
    exec (.wrreg reg data) s = .next (s.writeRegisters reg data) := by
  simp only [exec, execWrreg, State.cutPoint_of_noCutWithin hn, Phase.finish_go, if_neg hl]

/-! #### Their complete traces, by the agent's answers (rules R69, R71) -/

/-- The first transfer of a register operation, answered. -/
theorem State.transfer_first {n : Nat} (hn : noCutWithin n s = true) (hpos : 0 < n) (q : Pseq) {e : BusEvent}
    {r : BusReply} {d : Downstream} (ha : (s.downstream.sees e).answer e = (some r, d)) :
    s.transfer q e = .go r (s.midOperation [e] q d) := by
  have h := State.midOperation_transfer (q := s.pseq) (evs := []) hn hpos q ha
  rwa [State.midOperation_nil] at h

theorem State.readRegisters_answered {n : Nat} (hn : noCutWithin n s = true) (hpos : 0 < n) {r : BusReply}
    {d : Downstream} (ha : (s.downstream.sees (.read reg len)).answer (.read reg len) = (some r, d)) :
    s.readRegisters reg len = answered (afterEvents s [.read reg len] d) (readResponse len r) := by
  have h := State.midOperation_readRegisters (q := s.pseq) (evs := []) hn hpos ha
  rwa [State.midOperation_nil] at h

/-- A failed priming write aborts: no settle and no read (rule R68). -/
theorem State.readPrimed_of_write_failed {n : Nat} (hn : noCutWithin n s = true) (hpos : 0 < n) {w : BusReply}
    {d : Downstream} (hw : w.st ≠ 0)
    (ha : (s.downstream.sees (.write Config.selectReg [reg, len])).answer (.write Config.selectReg [reg, len])
      = (some w, d)) :
    s.readPrimed reg len = answered (afterEvents s [.write Config.selectReg [reg, len]] d) [stFail] := by
  rw [State.readPrimed, State.transfer_first hn hpos .primeWr ha, Phase.finish_go, if_pos hw]
  rfl

/-- The priming write done, the settle and the one read follow (rule R66). -/
theorem State.readPrimed_answered (hn : noCutWithin 3 s = true) {w r : BusReply} {d1 d2 : Downstream} (hw : w.st = 0)
    (ha : (s.downstream.sees (.write Config.selectReg [reg, len])).answer (.write Config.selectReg [reg, len])
      = (some w, d1))
    (hr : ((d1.sees .settle).sees (.read reg len)).answer (.read reg len) = (some r, d2)) :
    s.readPrimed reg len =
      answered (afterEvents s [.write Config.selectReg [reg, len], .settle, .read reg len] d2) (readResponse len r) := by
  rw [State.readPrimed, State.transfer_first hn (by decide) .primeWr ha, Phase.finish_go, if_neg (not_not_intro hw),
    State.midOperation_settle hn (by simp), Phase.finish_go]
  exact State.midOperation_readRegisters hn (by simp) hr

/-- A failed write ends WRREG with no settle (rule R27). -/
theorem State.writeRegisters_of_write_failed {n : Nat} (hn : noCutWithin n s = true) (hpos : 0 < n) {w : BusReply}
    {d : Downstream} (hw : w.st ≠ 0)
    (ha : (s.downstream.sees (.write reg data)).answer (.write reg data) = (some w, d)) :
    s.writeRegisters reg data = answered (afterEvents s [.write reg data] d) [stFail] := by
  rw [State.writeRegisters, State.transfer_first hn hpos .write ha, Phase.finish_go, if_pos hw]
  rfl

theorem State.writeRegisters_answered (hn : noCutWithin 2 s = true) {w : BusReply} {d : Downstream} (hw : w.st = 0)
    (ha : (s.downstream.sees (.write reg data)).answer (.write reg data) = (some w, d)) :
    s.writeRegisters reg data =
      answered (afterEvents s [.write reg data, .settle] (d.sees .settle)) [stOk] := by
  rw [State.writeRegisters, State.transfer_first hn (by decide) .write ha, Phase.finish_go, if_neg (not_not_intro hw),
    State.midOperation_settle hn (by simp)]
  rfl

end

end Sys2Proof.Machine

namespace Sys2Proof

open Machine Safety

/-- A WRREG frame too short for its length byte, or with other data than that byte counts, has not the length rule R44
gives it. -/
theorem expectedLength_wrreg_ne {rest : List Byte}
    (h : rest.length < 2 ∨ ∃ reg len data, rest = reg :: len :: data ∧ data.length ≠ len.toNat) :
    expectedLength (opcode .wrreg :: rest) ≠ some (opcode .wrreg :: rest).length := by
  match rest with
  | [] => simp [expectedLength]
  | [_] => simp [expectedLength]
  | reg :: len :: data =>
    simp [expectedLength] at h ⊢
    omega

/-- Settles O23: RDREG's reading branch by branch, each transfer and settle adding its event to the trace. -/
theorem rdregFollowsItsTraceTable : Obligations.RdregFollowsItsTraceTable := by
  refine ⟨fun reg len => decode_encode (i := .rdreg reg len) rfl,
    otherLengthsIllegal_of_expectedLength (op := .rdreg) fun _ => rfl, fun reg len s => ⟨?_, ?_, ?_⟩⟩
  · intro hl hn
    exact exec_rdreg_zero hn hl
  · intro hl hp r d hn ha
    refine ⟨Downstream.answer_read_length ha, ?_⟩
    rw [exec_rdreg_unprimed hn hl hp, State.readRegisters_answered hn Nat.one_pos ha]
    rfl
  · intro hl hlo hhi w d1 ha
    refine ⟨fun hw hn => ?_, fun hw hn r d2 hr => ⟨Downstream.answer_read_length hr, ?_⟩⟩
    · rw [exec_rdreg_primed hn hl ⟨hlo, hhi⟩, State.readPrimed_of_write_failed hn Nat.one_pos hw ha]
    · rw [exec_rdreg_primed hn hl ⟨hlo, hhi⟩, State.readPrimed_answered hn hw ha hr]
      rfl

/-- Settles O24: a frame of the wrong length is illegal, and the one write is followed by its settle where it succeeds. -/
theorem wrregFollowsItsTraceTable : Obligations.WrregFollowsItsTraceTable := by
  refine ⟨?_, ?_, fun reg data s => ⟨?_, ?_⟩⟩
  · intro reg len data hlen
    exact (decode_opcode_cons .wrreg _).trans (decodeOperands_wrreg_of_length hlen reg)
  · intro s rest cut others hbad hq hi
    exact step_of_illegalFrame hq hi (illegalFrame_of_expectedLength_ne (expectedLength_wrreg_ne hbad))
  · intro hl hn
    exact exec_wrreg_zero hn hl
  · intro hl w d ha
    refine ⟨fun hw hn => ?_, fun hw hn => ?_⟩
    · rw [exec_wrreg_some hn hl, State.writeRegisters_of_write_failed hn Nat.one_pos hw ha]
    · rw [exec_wrreg_some hn hl, State.writeRegisters_answered hn hw ha]

end Sys2Proof

/-! ### The family of 42_bcd_hour.md: BCD2BIN, BIN2BCD, HRDEC and HRENC (rules R80 to R87) -/

namespace Sys2Proof.Machine

open Safety

/-! #### A codec's flags, response and next state -/

theorem byteOf_eq_iff {n : Nat} {b : Byte} : byteOf n = b ↔ n % 256 = b.toNat := by
  rw [← BitVec.toNat_inj, byteOf, BitVec.toNat_ofNat]

theorem byteOf_toNat_of_lt {n : Nat} (h : n < 256) : (byteOf n).toNat = n := Nat.mod_eq_of_lt h

theorem packFlags_rng_alone (p : Prop) [Decidable p] :
    packFlags (decide p) false = if p then 0x02#8 else 0x00#8 := by
  by_cases h : p
  · rw [decide_eq_true h, if_pos h]; rfl
  · rw [decide_eq_false h, if_neg h]; rfl

theorem packFlags_badDigit (b : Byte) :
    packFlags false (badDigit b) = if b.toNat / 16 > 9 ∨ b.toNat % 16 > 9 then 0x01#8 else 0x00#8 := by
  rw [badDigit, nibHi_eq, nibLo_eq, ← Bool.decide_or]
  split_ifs with h
  · rw [decide_eq_true h]; rfl
  · rw [decide_eq_false h]; rfl

/-- A codec overwrites FLAGS, answers, and leaves everything else (rules R12, R105). -/
theorem State.finishCodec_eq_answered (s : State) (rng inv : Bool) (r : List Byte) :
    s.finishCodec rng inv r = answered { s with flags := packFlags rng inv } (stOk :: r) := rfl

theorem returned_answered_iff {s : State} {f : BitVec 8} {r r' : List Byte} :
    Returned s (answered { s with flags := f } r) r' ↔ r = r' := by
  simp [Returned, answered]

/-! #### BCD2BIN and BIN2BCD, and how they compose (rules R80 to R83) -/

section Bcd

variable {s t : State} {v e x : Byte}

theorem exec_bcd2bin (b : Byte) (s : State) : exec (.bcd2bin b) s =
    .next (answered { s with flags := if b.toNat / 16 > 9 ∨ b.toNat % 16 > 9 then 0x01#8 else 0x00#8 }
      [0x00#8, byteOf (bcd2bin b)]) := by
  rw [← packFlags_badDigit]
  rfl

theorem exec_bin2bcd (v : Byte) (s : State) : exec (.bin2bcd v) s =
    .next (answered { s with flags := if v.toNat > 99 then 0x02#8 else 0x00#8 } [0x00#8, byteOf (bin2bcd8 v.toNat)]) := by
  rw [← packFlags_rng_alone]
  rfl

theorem exec_bcd2bin_of_valid (hhi : x.toNat / 16 ≤ 9) (hlo : x.toNat % 16 ≤ 9) (s : State) :
    exec (.bcd2bin x) s = .next (answered { s with flags := 0x00#8 } [0x00#8, byteOf (bcd2bin x)]) := by
  rw [exec_bcd2bin, if_neg (by omega)]

theorem exec_bin2bcd_of_le (hv : v.toNat ≤ 99) (s : State) :
    exec (.bin2bcd v) s = .next (answered { s with flags := 0x00#8 } [0x00#8, byteOf (bin2bcd8 v.toNat)]) := by
  rw [exec_bin2bcd, if_neg (by omega)]

theorem eq_bcd2bin_of_returned (h : exec (.bcd2bin x) s = .next t) (hr : Returned s t [0x00#8, v]) :
    v = byteOf (bcd2bin x) := by
  cases (exec_bcd2bin x s).symm.trans h
  cases returned_answered_iff.mp hr
  rfl

theorem eq_bin2bcd8_of_returned (h : exec (.bin2bcd v) s = .next t) (hr : Returned s t [0x00#8, e]) :
    e = byteOf (bin2bcd8 v.toNat) := by
  cases (exec_bin2bcd v s).symm.trans h
  cases returned_answered_iff.mp hr
  rfl

theorem byteOf_bin2bcd8_toNat (v : Nat) : (byteOf (bin2bcd8 v)).toNat = bin2bcd8 v := byteOf_toNat_of_lt (bin2bcd8_lt v)

theorem byteOf_bcd2bin_toNat (x : Byte) : (byteOf (bcd2bin x)).toNat = bcd2bin x :=
  byteOf_toNat_of_lt (by have := bcd2bin_le x; omega)

/-- The tens wrap past 15, the largest nibble, and the units digit always fits one (rule R83). -/
theorem bcd2bin_bin2bcd8 (v : Nat) : bcd2bin (byteOf (bin2bcd8 v)) = v % 160 := by
  rw [bcd2bin_eq, byteOf_bin2bcd8_toNat, bin2bcd8]
  omega

/-- A units nibble above 9 carries into the tens, which adds 6; a tens nibble above 9 comes back as it was (rule R83). -/
theorem bin2bcd8_bcd2bin (x : Byte) :
    bin2bcd8 (bcd2bin x) = if x.toNat % 16 ≤ 9 then x.toNat else (x.toNat + 6) % 256 := by
  have := x.isLt
  rw [bin2bcd8, bcd2bin_eq]
  split <;> omega

theorem bcd2bin_bin2bcd8_eq_iff (v : Byte) : byteOf (bcd2bin (byteOf (bin2bcd8 v.toNat))) = v ↔ v.toNat ≤ 159 := by
  have := v.isLt
  rw [byteOf_eq_iff, bcd2bin_bin2bcd8]
  omega

theorem bin2bcd8_bcd2bin_eq_iff (x : Byte) :
    byteOf (bin2bcd8 (byteOf (bcd2bin x)).toNat) = x ↔ x.toNat % 16 ≤ 9 := by
  have := x.isLt
  rw [byteOf_eq_iff, byteOf_bcd2bin_toNat, bin2bcd8_bcd2bin]
  split <;> omega

/-- BIN2BCD makes two decimal digits of its documented values (rule R82). -/
theorem bin2bcd8_digits_of_le {n : Nat} (h : n ≤ 99) :
    (byteOf (bin2bcd8 n)).toNat / 16 ≤ 9 ∧ (byteOf (bin2bcd8 n)).toNat % 16 ≤ 9 := by
  rw [byteOf_bin2bcd8_toNat, bin2bcd8, Nat.mod_eq_of_lt (by omega)]
  omega

theorem bcd2bin_le_of_valid (hhi : x.toNat / 16 ≤ 9) (hlo : x.toNat % 16 ≤ 9) : (byteOf (bcd2bin x)).toNat ≤ 99 := by
  rw [byteOf_bcd2bin_toNat, bcd2bin_eq]
  omega

end Bcd

/-! #### HRDEC and HRENC under a held mode (rules R84 to R87) -/

section Hour

variable {s : State} {m : HourMode}

theorem hmode_eq_of_held (hv : s.hmode.v = true) (hm : s.hmode.m = m) : s.hmode = ⟨true, m⟩ := by
  rw [← hv, ← hm]

theorem exec_hrenc (hm : s.hmode = ⟨true, m⟩) (h : Byte) : exec (.hrenc h) s =
    .next (answered { s with flags := if h.toNat > 23 then 0x02#8 else 0x00#8 }
      [0x00#8, byteOf (encodeHour m h.toNat)]) := by
  rw [exec_hrenc_of_held hm, State.finishCodec_eq_answered, rngHour, packFlags_rng_alone]

/-- HRENC's byte under Hour24 (rule R86). -/
theorem byteOf_encodeHour_hour24 (h : Nat) :
    byteOf (encodeHour .hour24 h) = BitVec.ofNat 8 ((16 * (h / 10) + h % 10) % 256) ||| 0x80#8 := BitVec.ofNat_or

/-- HRENC's byte under Hour12, by noon and midnight (rule R86). -/
theorem byteOf_encodeHour_hour12 (h : Nat) : byteOf (encodeHour .hour12 h) =
    if h = 0 then 0x12#8
    else if h < 12 then BitVec.ofNat 8 (16 * (h / 10) + h % 10)
    else if h = 12 then 0x32#8
    else BitVec.ofNat 8 ((16 * ((h - 12) / 10) + (h - 12) % 10) % 256) ||| 0x20#8 := by
  simp only [encodeHour, apply_ite byteOf]
  split_ifs with h0 ham hnoon
  · rfl
  · rw [bin2bcd8, Nat.mod_eq_of_lt (by omega)]
    rfl
  · rfl
  · exact BitVec.ofNat_or

/-- What HRDEC must find in HRENC's byte of the hour `h` (rule R87 a, b). -/
def hourFields : HourMode → Nat → HourFields
  | .hour24, h => { hr := h, h24 := h, pm := false, f24 := true, inv := false, rng := false }
  | .hour12, h =>
    { hr := if h % 12 = 0 then 12 else h % 12, h24 := h, pm := decide (12 ≤ h), f24 := false, inv := false, rng := false }

/-- Rule R87's own check of the 24 values. -/
theorem decodeHour_encodeHour (m : HourMode) : ∀ h < 24, decodeHour m (byteOf (encodeHour m h)) = hourFields m h := by
  cases m with
  | hour12 => decide
  | hour24 => decide

@[simp] theorem hourFields_h24 (m : HourMode) (h : Nat) : (hourFields m h).h24 = h := by cases m <;> rfl
@[simp] theorem hourFields_inv (m : HourMode) (h : Nat) : (hourFields m h).inv = false := by cases m <;> rfl
@[simp] theorem hourFields_rng (m : HourMode) (h : Nat) : (hourFields m h).rng = false := by cases m <;> rfl

variable {h : Byte}

theorem exec_hrenc_of_le (hm : s.hmode = ⟨true, m⟩) (hh : h.toNat ≤ 23) : exec (.hrenc h) s =
    .next (answered { s with flags := 0x00#8 } [0x00#8, byteOf (encodeHour m h.toNat)]) := by
  rw [exec_hrenc hm, if_neg (by omega)]

/-- HRDEC of HRENC's byte of an hour of the day gives that hour, with FLAGS 0, under either mode (rule R87). -/
theorem exec_hrdec_encodeHour (hm : s.hmode = ⟨true, m⟩) (hh : h.toNat ≤ 23) :
    exec (.hrdec (byteOf (encodeHour m h.toNat))) s = .next (answered { s with flags := 0x00#8 }
      [0x00#8, byteOf (hourFields m h.toNat).hr, h,
        hourFlagByte (hourFields m h.toNat).f24 (hourFields m h.toNat).pm]) := by
  have hback : byteOf h.toNat = h := BitVec.ofNat_toNat 8 h
  rw [exec_hrdec_of_held hm, decodeHour_encodeHour m _ (by omega), State.finishCodec_eq_answered, hourFields_h24,
    hourFields_inv, hourFields_rng, hback]
  rfl

end Hour

end Sys2Proof.Machine

namespace Sys2Proof

open Machine Safety

/-- Settles O12: composed, the conversions are `v % 160` one way and, the other way, the byte itself or, where its units
nibble carries, that byte plus 6. -/
theorem bcdRoundTrip : Obligations.BcdRoundTrip := by
  refine ⟨fun v s hv => ?_, fun x s hhi hlo => ?_, ?_, ?_⟩
  · obtain ⟨hhi, hlo⟩ := bin2bcd8_digits_of_le hv
    refine ⟨byteOf (bin2bcd8 v.toNat), exec_bin2bcd_of_le hv s, ?_⟩
    rw [exec_bcd2bin_of_valid hhi hlo, (bcd2bin_bin2bcd8_eq_iff v).mpr (by omega)]
  · refine ⟨byteOf (bcd2bin x), exec_bcd2bin_of_valid hhi hlo s, ?_⟩
    rw [exec_bin2bcd_of_le (bcd2bin_le_of_valid hhi hlo), (bin2bcd8_bcd2bin_eq_iff x).mpr hlo]
  · intro s t u v e w ht he hu hw
    rw [eq_bcd2bin_of_returned hu hw, eq_bin2bcd8_of_returned ht he]
    exact bcd2bin_bin2bcd8_eq_iff v
  · intro x s t u v e ht hv hu he
    rw [eq_bin2bcd8_of_returned hu he, eq_bcd2bin_of_returned ht hv]
    exact bin2bcd8_bcd2bin_eq_iff x

/-- Refutes O13: 0xA0 is no valid BCD byte, and it goes to 100 and back. -/
theorem not_bcdConverseOnlyOnValidBytes : ¬ Obligations.BcdConverseOnlyOnValidBytes := by
  intro h
  obtain ⟨hhi, -⟩ := (h 0xA0#8 .reset _ _ 100#8 0xA0#8 rfl rfl rfl rfl).mp rfl
  exact absurd hhi (by decide)

/-- Settles O17: HRENC's byte of an hour decodes to that hour under the mode it was made in, and SETMODE between the two
makes that the new mode. -/
theorem hourLaws : Obligations.HourLaws := by
  intro h s hh
  refine ⟨fun hm => ⟨_, exec_hrenc_of_le hm hh, ?_⟩, fun hm => ⟨_, exec_hrenc_of_le hm hh, ?_⟩, ?_⟩
  · rw [exec_hrdec_encodeHour hm hh]
    simp [hourFields, byteOf, hourFlagByte, bitNat]
  · rw [exec_hrdec_encodeHour hm hh]
    simp only [hourFields, apply_ite byteOf]
    by_cases hpm : 12 ≤ h.toNat <;> simp [byteOf, hourFlagByte, bitNat, hpm]
  · intro m m' e hm he
    obtain rfl : byteOf (encodeHour m h.toNat) = e := by
      simpa [answered] using (exec_hrenc_of_le hm hh).symm.trans he
    exact ⟨_, _, _, _, _, _, _, _, exec_hrdec_encodeHour hm hh, returned_answered_iff.mpr rfl, rfl,
      exec_hrenc_of_le rfl hh, returned_answered_iff.mpr rfl, _, exec_hrdec_encodeHour rfl hh,
      returned_answered_iff.mpr rfl⟩

/-- Settles O10: the two nibbles are the byte's quotient and remainder by 16. -/
theorem bcd2binGivesTensAndUnits : Obligations.Bcd2binGivesTensAndUnits := by
  refine ⟨fun b => decode_encode (i := .bcd2bin b) rfl,
    otherLengthsIllegal_of_expectedLength (op := .bcd2bin) fun _ => rfl, fun b s => ?_⟩
  rw [exec_bcd2bin, bcd2bin_eq, byteOf]

/-- Settles O11: RNG stands for a value above 99, and the result is `bin2bcd8`'s byte. -/
theorem bin2bcdGivesTwoDigits : Obligations.Bin2bcdGivesTwoDigits :=
  ⟨fun v => decode_encode (i := .bin2bcd v) rfl, otherLengthsIllegal_of_expectedLength (op := .bin2bcd) fun _ => rfl,
    exec_bin2bcd⟩

/-- Settles O14: one case for no mode held and one for each mode, whose fields are read off the byte's quotients. -/
theorem hrdecDecodesUnderTheHeldMode : Obligations.HrdecDecodesUnderTheHeldMode := by
  refine ⟨fun b => decode_encode (i := .hrdec b) rfl,
    otherLengthsIllegal_of_expectedLength (op := .hrdec) fun _ => rfl, fun b s => ⟨?_, ?_, ?_⟩⟩
  · intro hv
    exact exec_hrdec_of_unset hv b
  · intro hv h24 m hr hm hhr
    obtain ⟨hHr, hH24, hFl, hFlags⟩ := decodeHour_hour24 b m hr hm hhr
    rw [exec_hrdec_of_held (hmode_eq_of_held hv h24), State.finishCodec_eq_answered, hHr, hH24, hFl, hFlags]
  · intro hv h12 m hr pm hm hhr hpm
    obtain ⟨hHr, hH24, hFl, hFlags⟩ := decodeHour_hour12 b m hr pm hm hhr hpm
    rw [exec_hrdec_of_held (hmode_eq_of_held hv h12), State.finishCodec_eq_answered, hHr, hH24, hFl, hFlags]

/-- Settles O15: one case for no mode held and one for each mode's byte. -/
theorem hrencEncodesUnderTheHeldMode : Obligations.HrencEncodesUnderTheHeldMode := by
  refine ⟨fun h => decode_encode (i := .hrenc h) rfl,
    otherLengthsIllegal_of_expectedLength (op := .hrenc) fun _ => rfl, fun h s => ⟨?_, ?_, ?_⟩⟩
  · intro hv
    exact exec_hrenc_of_unset hv h
  · intro hv h24
    rw [exec_hrenc (hmode_eq_of_held hv h24), byteOf_encodeHour_hour24]
  · intro hv h12
    rw [exec_hrenc (hmode_eq_of_held hv h12), byteOf_encodeHour_hour12]

end Sys2Proof

/-! ### The family of 43_fixedpoint.md: COORD and FIX3 (rules R95 to R98) -/

namespace Sys2Proof.Machine

open Safety

/-! #### Bytes in a row, read as a number -/

theorem append_byte_toNat {n : Nat} (a : BitVec n) (b : Byte) : (a ++ b).toNat = a.toNat * 256 + b.toNat := by
  rw [BitVec.toNat_append, shift_or_byte]

/-- The fraction is its three bytes, the first the most significant (rule R95, decision D11). -/
theorem append_toNat_eq_fracOf (d2 d3 d4 : Byte) : (d2 ++ d3 ++ d4).toNat = fracOf d2 d3 d4 := by
  rw [append_byte_toNat, append_byte_toNat, fracOf_eq]
  ring

/-- Four response bytes that carry a number below 2^32 read back as that number. -/
theorem append_toNat_of_be_four {v : Nat} {b3 b2 b1 b0 : Byte} (hv : v < 2 ^ 32) (h : be 4 v = [b3, b2, b1, b0]) :
    (b3 ++ b2 ++ b1 ++ b0).toNat = v := by
  rw [be_four] at h
  cases h
  simp only [append_byte_toNat, byteOf, BitVec.toNat_ofNat]
  omega

/-! #### COORD (rules R95 and R96) -/

theorem exec_coord (d0 d1 d2 d3 d4 d5 : Byte) (s : State) : exec (.coord d0 d1 d2 d3 d4 d5) s =
    .next (answered { s with flags := if fracOf d2 d3 d4 > 99999 then 0x02#8 else 0x00#8 }
      (0x00#8 :: (be 4 (packedOf d0.toNat d1.toNat (fracOf d2 d3 d4)) ++
        be 4 (ddegOf d0.toNat d1.toNat (fracOf d2 d3 d4)) ++ [d5]))) := by
  rw [← packFlags_rng_alone]
  rfl

/-- COORD's first four result bytes are PACKED's and its next four DDEG's (rule R95). -/
theorem coord_results_of_returned {d0 d1 d2 d3 d4 d5 p3 p2 p1 p0 q3 q2 q1 q0 dir : Byte} {s t : State}
    (h : exec (.coord d0 d1 d2 d3 d4 d5) s = .next t)
    (hr : Returned s t [0x00#8, p3, p2, p1, p0, q3, q2, q1, q0, dir]) :
    be 4 (packedOf d0.toNat d1.toNat (fracOf d2 d3 d4)) = [p3, p2, p1, p0] ∧
    be 4 (ddegOf d0.toNat d1.toNat (fracOf d2 d3 d4)) = [q3, q2, q1, q0] := by
  cases (exec_coord d0 d1 d2 d3 d4 d5 s).symm.trans h
  have hbytes := returned_answered_iff.mp hr
  rw [be_four, be_four] at hbytes
  cases hbytes
  exact ⟨be_four _, be_four _⟩

theorem packedOf_div_packScale (deg min frac : Nat) :
    (packedOf deg min frac : ℚ) / 100000 = deg * 100 + min + (frac : ℚ) / 100000 := by
  simp only [packedOf, packScale]
  push_cast
  ring

theorem ddegOf_div_ddScale (deg min frac : Nat) :
    (ddegOf deg min frac : ℚ) / 6000000 = deg + (min : ℚ) / 60 + (frac : ℚ) / 100000 / 60 := by
  simp only [ddegOf, ddScale]
  push_cast
  ring

/-! #### FIX3 (rule R98) -/

theorem rngFix3_eq_decide (b0 : Byte) : rngFix3 b0 = decide (b0.toNat ≥ 128) := b0.msb_eq_decide

theorem fix3Val_lt (b0 b1 b2 : Byte) : fix3Val b0 b1 b2 < 2 ^ 24 := by
  have := b1.isLt
  have := b2.isLt
  rw [fix3Val_eq]
  omega

theorem exec_fix3 (b0 b1 b2 : Byte) (s : State) : exec (.fix3 b0 b1 b2) s =
    .next (answered { s with flags := if b0.toNat ≥ 128 then 0x02#8 else 0x00#8 }
      (0x00#8 :: be 3 (fix3Val b0 b1 b2))) := by
  rw [← packFlags_rng_alone, ← rngFix3_eq_decide]
  rfl

end Sys2Proof.Machine

namespace Sys2Proof

open Machine Safety

/-- Settles O19: the eight result bytes read back as PACKED and DDEG, and dividing each by its scale, term by term,
gives the rational sum. -/
theorem coordResultsAreExactRationals : Obligations.CoordResultsAreExactRationals := by
  intro d0 d1 d2 d3 d4 d5 s t p3 p2 p1 p0 q3 q2 q1 q0 dir h hr
  obtain ⟨hpacked, hddeg⟩ := coord_results_of_returned h hr
  have hlt := (ddegOf_lt d0 d1 d2 d3 d4).trans (show 2 ^ 31 < 2 ^ 32 by decide)
  rw [append_toNat_of_be_four (packedOf_lt d0 d1 d2 d3 d4) hpacked, append_toNat_of_be_four hlt hddeg,
    append_toNat_eq_fracOf]
  exact ⟨packedOf_div_packScale _ _ _, ddegOf_div_ddScale _ _ _⟩

/-- Settles O18: PACKED and DDEG fit their four bytes, and RNG stands for a fraction above 99999. -/
theorem coordGivesBothScaledValues : Obligations.CoordGivesBothScaledValues := by
  refine ⟨fun d0 d1 d2 d3 d4 d5 => decode_encode (i := .coord d0 d1 d2 d3 d4 d5) rfl,
    otherLengthsIllegal_of_expectedLength (op := .coord) fun _ => rfl, ?_⟩
  intro d0 d1 d2 d3 d4 d5 s frac p d hfrac hp hd
  rw [← fracOf_eq] at hfrac
  have hpacked : packedOf d0.toNat d1.toNat frac = p := hp.symm
  have hddeg : ddegOf d0.toNat d1.toNat frac = d := hd.symm
  subst hfrac hpacked hddeg
  refine ⟨packedOf_lt d0 d1 d2 d3 d4, ddegOf_lt d0 d1 d2 d3 d4, ?_⟩
  rw [exec_coord, be_four, be_four]
  rfl

/-- Settles O20: VAL fits its three bytes, and RNG stands for the reserved bit. -/
theorem fix3GivesHundredths : Obligations.Fix3GivesHundredths := by
  refine ⟨fun b0 b1 b2 => decode_encode (i := .fix3 b0 b1 b2) rfl,
    otherLengthsIllegal_of_expectedLength (op := .fix3) fun _ => rfl, ?_⟩
  intro b0 b1 b2 s val hval
  rw [← fix3Val_eq] at hval
  subst hval
  refine ⟨fix3Val_lt b0 b1 b2, ?_⟩
  rw [exec_fix3, be_three]
  rfl

end Sys2Proof

/-! ### The family of 60_exceptions.md: statuses, and reset or CANCEL inside an operation (rules R105 to R112) -/

namespace Sys2Proof.Machine

open Safety

/-! #### Which status a response opens with -/

section Statuses

variable {s t : State}

/-- At most one response is returned, so there is one answer to what was returned (rule R3). -/
theorem eq_of_returned {r r' : List Byte} (h : Returned s t r) (h' : Returned s t r') : r = r' :=
  List.singleton_inj.mp (List.append_cancel_left (h.symm.trans h'))

/-- Whatever ends a WRREG, what it returned is a response rule R71 lists. -/
theorem exec_wrreg_returned {reg : Byte} {data r : List Byte} (h : exec (.wrreg reg data) s = .next t)
    (hr : Returned s t r) : ∃ evs, wrregResponse reg data evs r := by
  obtain ⟨t', evs, ht', -, hend⟩ := execWrreg_cases reg data s
  obtain rfl : t' = t := Host.Outcome.next.inj (ht'.symm.trans h)
  obtain ⟨-, -, ⟨-, -, -, -, hrec, -⟩ | ⟨r', hr', -, -, -, -, hrec⟩ | ⟨-, -, -, -, hrec⟩⟩ := hend.fields
  · exact absurd hr (not_returned_of_received_eq hrec)
  · exact ⟨evs, eq_of_returned hr hrec ▸ hr'⟩
  · exact absurd hr (not_returned_of_received_eq hrec)

/-- The statuses the operation `i`, begun in `s`, can return (rules R105, R106, R108, R109). -/
inductive StatusOf (i : Instr) (s : State) : Byte → Prop where
  | ok : StatusOf i s stOk
  | fail (op : isRegAccess i = true) : StatusOf i s stFail
  | nomode (op : ∃ b, i = .hrdec b ∨ i = .hrenc b) (unset : s.hmode.v = false) : StatusOf i s stNomode
  | short (reg len : Byte) (op : i = .rdreg reg len) (asked : len.toNat ≠ 0) : StatusOf i s stShort

/-- Every response of an operation opens with one of its statuses. -/
theorem exec_returned_status {i : Instr} {st : Byte} {rest : List Byte} (h : exec i s = .next t)
    (hr : Returned s t (st :: rest)) : StatusOf i s st := by
  have status {st' : Byte} {rest' : List Byte} (h' : Returned s t (st' :: rest')) : st' = st :=
    (List.cons.inj (eq_of_returned h' hr)).1
  have ok {r : List Byte} (hok : Returned s t (stOk :: r)) : StatusOf i s st := status hok ▸ .ok
  cases i with
  | rdreg reg len =>
    obtain ⟨evs, hfail | ⟨-, ⟨hshort, hlen⟩ | ⟨data, hok, -⟩⟩⟩ := exec_rdreg_returned h hr
    · exact (List.cons.inj hfail).1 ▸ .fail rfl
    · exact (List.cons.inj hshort).1 ▸ .short reg len rfl hlen
    · exact (List.cons.inj hok).1 ▸ .ok
  | wrreg reg data =>
    obtain ⟨evs, hfail | ⟨hok, -⟩⟩ := exec_wrreg_returned h hr
    · exact (List.cons.inj hfail).1 ▸ .fail rfl
    · exact (List.cons.inj hok).1 ▸ .ok
  | hrdec b =>
    rcases hm : s.hmode with ⟨_ | _, m⟩
    · obtain rfl := Host.Outcome.next.inj ((exec_hrdec_of_unset (by rw [hm]) b).symm.trans h)
      exact status rfl ▸ .nomode ⟨b, .inl rfl⟩ (by rw [hm])
    · obtain rfl := Host.Outcome.next.inj ((exec_hrdec_of_held hm b).symm.trans h)
      exact ok rfl
  | hrenc b =>
    rcases hm : s.hmode with ⟨_ | _, m⟩
    · obtain rfl := Host.Outcome.next.inj ((exec_hrenc_of_unset (by rw [hm]) b).symm.trans h)
      exact status rfl ▸ .nomode ⟨b, .inr rfl⟩ (by rw [hm])
    · obtain rfl := Host.Outcome.next.inj ((exec_hrenc_of_held hm b).symm.trans h)
      exact ok rfl
  | _ =>
    obtain rfl := Host.Outcome.next.inj h
    exact ok rfl

/-- No operation returns ST_ILLEGAL (rule R107). -/
theorem not_exec_returned_illegal {i : Instr} {rest : List Byte} (h : exec i s = .next t) :
    ¬ Returned s t (stIllegal :: rest) := fun hr =>
  nomatch exec_returned_status h hr

end Statuses

/-! #### A cut inside a register operation (rule R112) -/

/-- What a reset or CANCEL that lands inside the operation begun in `s` leaves, the agent then being `d`: the events
before it stay with the agent, and of the block and its pending cut nothing stays. -/
def State.cancelledWith (s : State) (d : Downstream) : State := { s.cancelled with downstream := d }

theorem State.cancelledWith_blockReset (s : State) (d : Downstream) : BlockReset (s.cancelledWith d) :=
  ⟨rfl, rfl, rfl, rfl⟩

/-- A cut after `k` events does not land within fewer. -/
theorem noCutWithin_of_cut {s : State} {n k : Nat} (hc : s.host.cut = some k) (hn : n < k) :
    noCutWithin n s = true := by
  simp [noCutWithin, hc, hn]

section

variable {s : State} {evs : List BusEvent} {q : Pseq} {d : Downstream} {reg len : Byte} {data : List Byte}

/-- The cut after one event more than `evs` is due once that event is issued. -/
theorem State.midOperation_due (hc : s.host.cut = some (evs.length + 1)) :
    (s.midOperation evs q d).host.cut.map (· - 1) = some 0 := by
  simp [State.midOperation, afterEvents, hc]

/-- A cut that lands at a transfer comes before its answer, which the agent keeps for the next (log entry 20). -/
theorem State.midOperation_transfer_due (hc : s.host.cut = some (evs.length + 1)) (q' : Pseq) (e : BusEvent) :
    (s.midOperation evs q d).transfer q' e = .over (s.cancelledWith (d.sees e)) := by
  rw [State.transfer_due (State.midOperation_due hc), State.midOperation_issue]
  rfl

theorem State.midOperation_settle_due (hc : s.host.cut = some (evs.length + 1)) (q' : Pseq) :
    (s.midOperation evs q d).settle q' = .over (s.cancelledWith (d.sees .settle)) := by
  rw [State.settle_due (State.midOperation_due hc), State.midOperation_issue]
  rfl

theorem State.midOperation_readRegisters_due (hc : s.host.cut = some (evs.length + 1)) :
    (s.midOperation evs q d).readRegisters reg len = s.cancelledWith (d.sees (.read reg len)) := by
  rw [State.readRegisters, State.midOperation_transfer_due hc, Phase.finish_over]

theorem State.transfer_first_due (hc : s.host.cut = some 1) (q : Pseq) (e : BusEvent) :
    s.transfer q e = .over (s.cancelledWith (s.downstream.sees e)) := by
  have h := State.midOperation_transfer_due (evs := []) (q := s.pseq) (d := s.downstream) hc q e
  rwa [State.midOperation_nil] at h

end

/-! #### What the agent has seen and given -/

/-- From `d` to `d'` the agent has seen the events `evs` and used up the first `n` of its known answers, or all if there
are fewer. -/
structure Downstream.Serves (d : Downstream) (evs : List BusEvent) (n : Nat) (d' : Downstream) : Prop where
  log : d'.log = d.log ++ evs
  answers : d'.answers = d.answers.drop n

section

variable {d d' d'' : Downstream} {evs : List BusEvent} {n : Nat}

theorem Downstream.Serves.refl (d : Downstream) : d.Serves [] 0 d := ⟨by simp, by simp⟩

theorem Downstream.Serves.sees (h : d.Serves evs n d') (e : BusEvent) : d.Serves (evs ++ [e]) n (d'.sees e) :=
  ⟨by simp [h.log], h.answers⟩

/-- An answer uses up one known answer, if there is one. -/
theorem Downstream.answer_answers (e : BusEvent) (d : Downstream) : (d.answer e).2.answers = d.answers.tail := by
  unfold Downstream.answer
  split
  · next h => simp [h]
  · next h => simp [h]
  · next h => simp [h]

theorem Downstream.Serves.answered (h : d.Serves evs n d') {e : BusEvent} {o : Option BusReply}
    (ha : (d'.sees e).answer e = (o, d'')) : d.Serves (evs ++ [e]) (n + 1) d'' where
  log := by
    have hlog : d''.log = (d'.sees e).log := by simpa [ha] using Downstream.answer_log e (d'.sees e)
    simp [hlog, h.log]
  answers := by
    have hans : d''.answers = d'.answers.tail := by simpa [ha] using Downstream.answer_answers e (d'.sees e)
    simp [hans, h.answers]

/-- The agent is known to answer its next `n` transfers, and every other it is known to answer, with status 0. -/
structure Downstream.Succeeds (n : Nat) (d : Downstream) : Prop where
  all : ∀ a ∈ d.answers, ∃ r, a = .reply r ∧ r.st = 0
  enough : n ≤ d.answers.length

theorem Downstream.Succeeds.mono {m : Nat} (h : d.Succeeds m) (hn : n ≤ m) : d.Succeeds n :=
  ⟨h.all, hn.trans h.enough⟩

theorem Downstream.Succeeds.served {m : Nat} (h : d.Succeeds m) (hs : d.Serves evs n d') : d'.Succeeds (m - n) where
  all a ha := h.all a (List.mem_of_mem_drop (hs.answers ▸ ha))
  enough := by
    have := h.enough
    rw [hs.answers, List.length_drop]
    omega

theorem BusReply.heldTo_st (e : BusEvent) (r : BusReply) : (BusReply.heldTo e r).st = r.st := by
  cases e with
  | write a data => rfl
  | settle => rfl
  | read a n => rfl

/-- The transfer `e`, were it the next event, would succeed. -/
def Downstream.SucceedsAt (d : Downstream) (e : BusEvent) : Prop :=
  ∃ (w : BusReply) (d' : Downstream), w.st = 0 ∧ (d.sees e).answer e = (some w, d')

/-- Where a success is known to come, the transfer succeeds. -/
theorem Downstream.Succeeds.answer (h : d.Succeeds (n + 1)) (e : BusEvent) : d.SucceedsAt e := by
  obtain ⟨hall, henough⟩ := h
  rcases ha : d.answers with _ | ⟨a, rest⟩
  · simp [ha] at henough
  · obtain ⟨r, rfl, hr⟩ := hall a (ha ▸ List.mem_cons_self)
    refine ⟨_, _, ?_, by simp only [Downstream.answer, Downstream.sees_answers, ha]; rfl⟩
    rw [BusReply.heldTo_st, hr]

end

/-! #### The whole trace of each operation (rules R69, R71) -/

section

variable {reg len : Byte} {data : List Byte}

theorem wholeTrace_of_not_isRegAccess {i : Instr} (h : isRegAccess i = false) : wholeTrace i = [] := by
  cases i with
  | rdreg reg len => cases h
  | wrreg reg data => cases h
  | _ => rfl

theorem wholeTrace_rdreg_zero (hl : len.toNat = 0) : wholeTrace (.rdreg reg len) = [] := if_pos hl

theorem wholeTrace_rdreg_unprimed (hl : len.toNat ≠ 0) (hp : ¬ (0x30 ≤ reg.toNat ∧ reg.toNat ≤ 0x79)) :
    wholeTrace (.rdreg reg len) = [.read reg len] := by
  rw [wholeTrace, if_neg hl, if_neg hp]

theorem wholeTrace_rdreg_primed (hl : len.toNat ≠ 0) (hp : 0x30 ≤ reg.toNat ∧ reg.toNat ≤ 0x79) :
    wholeTrace (.rdreg reg len) = [.write Config.selectReg [reg, len], .settle, .read reg len] := by
  rw [wholeTrace, if_neg hl, if_pos hp]

theorem wholeTrace_wrreg_zero (hl : data.length = 0) : wholeTrace (.wrreg reg data) = [] := if_pos hl

theorem wholeTrace_wrreg_some (hl : data.length ≠ 0) :
    wholeTrace (.wrreg reg data) = [.write reg data, .settle] := if_neg hl

end

/-! #### Register operations cut after `k` of their events -/

section

variable {s : State} {k : Nat} {reg len : Byte} {data : List Byte}

/-- The operation `i`, begun in `s`, is cut once it has issued `evs`, at most one answer having been given. -/
def CutAfter (i : Instr) (s : State) (evs : List BusEvent) : Prop :=
  ∃ d, ∃ n ≤ 1, exec i s = .next (s.cancelledWith d) ∧ s.downstream.Serves evs n d

/-- A cut before the first event. -/
theorem cutAfter_zero {i : Instr} (hi : isRegAccess i = true) (hc : s.host.cut = some 0) : CutAfter i s [] := by
  have hcut := State.cutPoint_due hc
  refine ⟨s.downstream, 0, by decide, ?_, .refl _⟩
  cases i with
  | rdreg reg len => simp only [exec, execRdreg, hcut]; rfl
  | wrreg reg data => simp only [exec, execWrreg, hcut]; rfl
  | _ => cases hi

theorem cutAfter_rdreg_unprimed (hc : s.host.cut = some 1) (hl : len.toNat ≠ 0)
    (hp : ¬ (0x30 ≤ reg.toNat ∧ reg.toNat ≤ 0x79)) : CutAfter (.rdreg reg len) s [.read reg len] := by
  refine ⟨_, 0, by decide, ?_, (Downstream.Serves.refl _).sees _⟩
  rw [exec_rdreg_unprimed (noCutWithin_of_cut hc Nat.one_pos) hl hp, State.readRegisters, State.transfer_first_due hc,
    Phase.finish_over]

theorem cutAfter_rdreg_primed (hc : s.host.cut = some (k + 1)) (hk : k < 3) (hl : len.toNat ≠ 0)
    (hp : 0x30 ≤ reg.toNat ∧ reg.toNat ≤ 0x79)
    (hw : k ≠ 0 → s.downstream.SucceedsAt (.write Config.selectReg [reg, len])) :
    CutAfter (.rdreg reg len) s ([.write Config.selectReg [reg, len], .settle, .read reg len].take (k + 1)) := by
  have hn : noCutWithin k s = true := noCutWithin_of_cut hc (by omega)
  rw [CutAfter, exec_rdreg_primed hn hl hp, State.readPrimed]
  obtain _ | k := k
  · refine ⟨_, 0, by decide, ?_, (Downstream.Serves.refl _).sees _⟩
    rw [State.transfer_first_due hc, Phase.finish_over]
  obtain ⟨w, d, hst, ha⟩ := hw k.succ_ne_zero
  have hwrote := (Downstream.Serves.refl s.downstream).answered ha
  rw [State.transfer_first hn k.succ_pos .primeWr ha, Phase.finish_go, if_neg (not_not_intro hst)]
  obtain rfl | rfl : k = 0 ∨ k = 1 := by omega
  · refine ⟨_, 1, by decide, ?_, hwrote.sees .settle⟩
    rw [State.midOperation_settle_due hc, Phase.finish_over]
  · refine ⟨_, 1, by decide, ?_, (hwrote.sees .settle).sees (.read reg len)⟩
    rw [State.midOperation_settle hn (by simp), Phase.finish_go, State.midOperation_readRegisters_due hc]

theorem cutAfter_wrreg (hc : s.host.cut = some (k + 1)) (hk : k < 2) (hl : data.length ≠ 0)
    (hw : k ≠ 0 → s.downstream.SucceedsAt (.write reg data)) :
    CutAfter (.wrreg reg data) s ([.write reg data, .settle].take (k + 1)) := by
  have hn : noCutWithin k s = true := noCutWithin_of_cut hc (by omega)
  rw [CutAfter, exec_wrreg_some hn hl, State.writeRegisters]
  obtain _ | k := k
  · refine ⟨_, 0, by decide, ?_, (Downstream.Serves.refl _).sees _⟩
    rw [State.transfer_first_due hc, Phase.finish_over]
  obtain ⟨w, d, hst, ha⟩ := hw k.succ_ne_zero
  obtain rfl : k = 0 := by omega
  refine ⟨_, 1, by decide, ?_, ((Downstream.Serves.refl _).answered ha).sees .settle⟩
  rw [State.transfer_first hn Nat.one_pos .write ha, Phase.finish_go, if_neg (not_not_intro hst),
    State.midOperation_settle_due hc, Phase.finish_over]

/-- A register operation whose transfers succeed can be cut after any prefix of its events (rules R16, R112). -/
theorem cutAfter_take {i : Instr} (hi : isRegAccess i = true) (hc : s.host.cut = some k)
    (hk : k ≤ (wholeTrace i).length) (hs : ∀ e, s.downstream.SucceedsAt e) : CutAfter i s ((wholeTrace i).take k) := by
  obtain _ | k := k
  · exact cutAfter_zero hi hc
  cases i with
  | rdreg reg len =>
    by_cases hl : len.toNat = 0
    · rw [wholeTrace_rdreg_zero hl] at hk
      cases hk
    by_cases hp : 0x30 ≤ reg.toNat ∧ reg.toNat ≤ 0x79
    · rw [wholeTrace_rdreg_primed hl hp] at hk ⊢
      exact cutAfter_rdreg_primed hc hk hl hp fun _ => hs _
    · rw [wholeTrace_rdreg_unprimed hl hp] at hk ⊢
      obtain rfl : k = 0 := Nat.lt_one_iff.mp hk
      exact cutAfter_rdreg_unprimed hc hl hp
  | wrreg reg data =>
    by_cases hl : data.length = 0
    · rw [wholeTrace_wrreg_zero hl] at hk
      cases hk
    · rw [wholeTrace_wrreg_some hl] at hk ⊢
      exact cutAfter_wrreg hc hk hl fun _ => hs _
  | _ => cases hi

end

/-! #### One operation of a sequence, run to its end or cut -/

section

variable {s t : State} {evs : List BusEvent} {n : Nat} {d : Downstream}

/-- From `s` to `t` the block ran one operation, which issued `evs` and returned `rs`, at most two answers being given. -/
structure RanOperation (s t : State) (evs : List BusEvent) (rs : List (List Byte)) : Prop where
  idle : t.pseq = .idle
  inputs : t.host.inputs = s.host.inputs
  received : t.host.received = s.host.received ++ rs
  agent : ∃ n ≤ 2, s.downstream.Serves evs n t.downstream

theorem ranOperation_answered (h : s.downstream.Serves evs n d) (hn : n ≤ 2) (r : List Byte) :
    RanOperation s (answered (afterEvents s evs d) r) evs [r] :=
  ⟨rfl, rfl, rfl, n, hn, h⟩

theorem ranOperation_cancelledWith (h : s.downstream.Serves evs n d) (hn : n ≤ 2) :
    RanOperation s (s.cancelledWith d) evs [] :=
  ⟨rfl, rfl, (List.append_nil _).symm, n, hn, h⟩

theorem noCutWithin_of_no_cut (hc : s.host.cut = none) (n : Nat) : noCutWithin n s = true := by
  simp [noCutWithin, hc]

theorem exec_rdreg_runs_whole (reg len : Byte) (hc : s.host.cut = none) (hs : s.downstream.Succeeds 2) :
    ∃ t r, exec (.rdreg reg len) s = .next t ∧ RanOperation s t (wholeTrace (.rdreg reg len)) [r] := by
  have hn := noCutWithin_of_no_cut hc
  by_cases hl : len.toNat = 0
  · rw [wholeTrace_rdreg_zero hl]
    exact ⟨_, _, exec_rdreg_zero (hn 0) hl, rfl, rfl, rfl, 0, by decide, .refl _⟩
  by_cases hp : 0x30 ≤ reg.toNat ∧ reg.toNat ≤ 0x79
  · obtain ⟨w, d1, hw, ha⟩ := hs.answer (.write Config.selectReg [reg, len])
    have hprimed := ((Downstream.Serves.refl s.downstream).answered ha).sees .settle
    obtain ⟨r, d2, -, hr⟩ := (hs.served hprimed).answer (.read reg len)
    rw [wholeTrace_rdreg_primed hl hp, exec_rdreg_primed (hn 3) hl hp, State.readPrimed_answered (hn 3) hw ha hr]
    exact ⟨_, _, rfl, ranOperation_answered (hprimed.answered hr) le_rfl _⟩
  · obtain ⟨r, d, -, hr⟩ := hs.answer (.read reg len)
    rw [wholeTrace_rdreg_unprimed hl hp, exec_rdreg_unprimed (hn 1) hl hp,
      State.readRegisters_answered (hn 1) Nat.one_pos hr]
    exact ⟨_, _, rfl, ranOperation_answered ((Downstream.Serves.refl _).answered hr) (by decide) _⟩

theorem exec_wrreg_runs_whole (reg : Byte) (data : List Byte) (hc : s.host.cut = none)
    (hs : s.downstream.Succeeds 2) :
    ∃ t r, exec (.wrreg reg data) s = .next t ∧ RanOperation s t (wholeTrace (.wrreg reg data)) [r] := by
  have hn := noCutWithin_of_no_cut hc
  by_cases hl : data.length = 0
  · rw [wholeTrace_wrreg_zero hl]
    exact ⟨_, _, exec_wrreg_zero (hn 0) hl, rfl, rfl, rfl, 0, by decide, .refl _⟩
  · obtain ⟨w, d, hw, ha⟩ := hs.answer (.write reg data)
    rw [wholeTrace_wrreg_some hl, exec_wrreg_some (hn 2) hl, State.writeRegisters_answered (hn 2) hw ha]
    exact ⟨_, _, rfl, ranOperation_answered (((Downstream.Serves.refl _).answered ha).sees .settle) (by decide) _⟩

/-- With no cut pending and every transfer succeeding an operation issues its whole trace and returns one response. -/
theorem exec_runs_whole (i : Instr) (hc : s.host.cut = none) (hs : s.downstream.Succeeds 2) :
    ∃ t r, exec i s = .next t ∧ RanOperation s t (wholeTrace i) [r] := by
  cases hi : isRegAccess i with
  | false =>
    obtain ⟨m, f, r, he⟩ := exec_of_not_isRegAccess hi s
    rw [wholeTrace_of_not_isRegAccess hi]
    exact ⟨_, r, he s.downstream, rfl, rfl, rfl, 0, by decide, .refl _⟩
  | true =>
    cases i with
    | rdreg reg len => exact exec_rdreg_runs_whole reg len hc hs
    | wrreg reg data => exact exec_wrreg_runs_whole reg data hc hs
    | _ => cases hi

/-- The operation `x.1` can be handed over in a frame, and the cut `x.2`, if any, lands inside it (rule R112). -/
def CutWithin (x : Instr × Option Nat) : Prop :=
  x.1.wellFormed = true ∧ ∀ k, x.2 = some k → isRegAccess x.1 = true ∧ k ≤ (wholeTrace x.1).length

/-- The events the operation `x.1` leaves under the cut `x.2`. -/
def issued (x : Instr × Option Nat) : List BusEvent :=
  match x.2 with
  | none => wholeTrace x.1
  | some k => (wholeTrace x.1).take k

/-- The next operation of the sequence, in one step: it returns a response, or it is cut and the block is reset. -/
theorem step_runs_operation {x : Instr × Option Nat} {rest : List HostInput} (hq : s.pseq = .idle)
    (hi : s.host.inputs = .frame (encode x.1) x.2 :: rest) (hx : CutWithin x) (hs : s.downstream.Succeeds 2) :
    ∃ t rs, step s = .next t ∧ RanOperation (s.accept x.2 rest) t (issued x) rs ∧
      rs.length = (if x.2.isNone then 1 else 0) ∧ (∀ k, x.2 = some k → BlockReset t) := by
  obtain ⟨i, c⟩ := x
  obtain ⟨hwf, hcut⟩ := hx
  rw [step_of_decode_ok hq hi (decode_encode hwf)]
  cases c with
  | none =>
    obtain ⟨t, r, he, hran⟩ := exec_runs_whole (s := s.accept none rest) i rfl hs
    exact ⟨t, [r], he, hran, rfl, nofun⟩
  | some k =>
    obtain ⟨hreg, hk⟩ := hcut k rfl
    have hsucc : ∀ e, (s.accept (some k) rest).downstream.SucceedsAt e := hs.answer
    obtain ⟨d, n, hn, he, hserves⟩ := cutAfter_take hreg rfl hk hsucc
    exact ⟨_, [], he, ranOperation_cancelledWith hserves (by omega), rfl, fun _ _ => State.cancelledWith_blockReset _ d⟩

/-- From `s` to `t` the block ran all the operations `ops`, each to its end or to its cut. -/
structure RanAll (ops : List (Instr × Option Nat)) (s t : State) : Prop where
  idle : t.pseq = .idle
  inputs : t.host.inputs = []
  log : t.downstream.log = s.downstream.log ++ ops.flatMap issued
  received : ∃ rs, t.host.received = s.host.received ++ rs ∧ rs.length = ops.countP fun x => x.2.isNone
  reset : ∀ k, ops.getLast?.map (·.2) = some (some k) → BlockReset t

/-- A sequence begins with its first operation, and its last operation is the last of the others, if there are any. -/
theorem RanAll.cons {x : Instr × Option Nat} {ops : List (Instr × Option Nat)} {rest : List HostInput}
    {rs : List (List Byte)} {u : State} (hran : RanOperation (s.accept x.2 rest) u (issued x) rs)
    (hrs : rs.length = if x.2.isNone then 1 else 0) (hreset : ops = [] → ∀ k, x.2 = some k → BlockReset t)
    (hall : RanAll ops u t) : RanAll (x :: ops) s t where
  idle := hall.idle
  inputs := hall.inputs
  log := by
    obtain ⟨n, -, hserves⟩ := hran.agent
    simp [hall.log, hserves.log]
  received := by
    obtain ⟨rs', hrec, hlen⟩ := hall.received
    exact ⟨rs ++ rs', by simp [hrec, hran.received], by rw [List.length_append, hrs, hlen, List.countP_cons, add_comm]⟩
  reset k hk := by
    cases ops with
    | nil => exact hreset rfl k (by simpa using hk)
    | cons y ops => exact hall.reset k (by simpa using hk)

/-- As many steps as operations run them all, by induction on the operations. -/
theorem run_cut_operations (ops : List (Instr × Option Nat)) (s : State) (hq : s.pseq = .idle)
    (hi : s.host.inputs = framesOnly (ops.map fun x => (encode x.1, x.2))) (hops : ∀ x ∈ ops, CutWithin x)
    (hs : s.downstream.Succeeds (2 * ops.length)) : ∃ t, core.run ops.length s = .next t ∧ RanAll ops s t := by
  induction ops generalizing s with
  | nil => exact ⟨s, rfl, hq, hi, by simp, ⟨[], by simp⟩, by simp⟩
  | cons x ops ih =>
    obtain ⟨hx, hops⟩ := List.forall_mem_cons.mp hops
    have hlen : 2 * (x :: ops).length = 2 * ops.length + 2 := rfl
    obtain ⟨u, rs, hstep, hran, hrs, hreset⟩ := step_runs_operation hq hi hx (hs.mono (by omega))
    obtain ⟨n, hn, hserves⟩ := hran.agent
    obtain ⟨t, hrun, hall⟩ := ih u hran.idle hran.inputs hops ((hs.served hserves).mono (by omega))
    refine ⟨t, (run_succ_of_step hstep _).trans hrun, .cons hran hrs ?_ hall⟩
    rintro rfl
    obtain rfl : u = t := Host.Outcome.next.inj hrun
    exact hreset

end

end Sys2Proof.Machine

namespace Sys2Proof

open Machine Safety

/-- Settles O44: each step runs one operation, to its end or to its cut, and leaves the block ready for the next. -/
theorem everyOperationCanBeCut : Obligations.EveryOperationCanBeCut := by
  intro s ops hq hi hops hall henough
  obtain ⟨t, hrun, hidle, hinputs, hlog, ⟨rs, hrec, hlen⟩, hreset⟩ := run_cut_operations ops s hq hi hops ⟨hall, henough⟩
  exact ⟨t, rs, hrun, hidle, hinputs, hlog, hrec, hlen, hreset⟩

/-- Settles O6: an illegal frame is refused by the decoder, and a legal one runs an operation, which never returns
ST_ILLEGAL. -/
theorem stIllegalExactlyForIllegalFrames : Obligations.StIllegalExactlyForIllegalFrames := by
  intro s F cut others hq hi
  refine ⟨step_of_illegalFrame hq hi, fun t ht hr => ?_⟩
  cases hd : decode F with
  | error e => exact illegalFrame_of_decode_error hd
  | ok i =>
    rw [step_of_decode_ok hq hi hd] at ht
    exact absurd hr (not_exec_returned_illegal (s := s.accept cut others) ht)

/-- Settles O16: of the statuses of an operation ST_NOMODE belongs to an hour operation with no mode set. -/
theorem stNomodeExactlyForUnsetHourOperations : Obligations.StNomodeExactlyForUnsetHourOperations := by
  intro s i
  constructor
  · rintro ⟨b, rfl | rfl⟩ hv
    · exact exec_hrdec_of_unset hv b
    · exact exec_hrenc_of_unset hv b
  · intro t h hr
    cases exec_returned_status h hr with
    | nomode op unset => exact ⟨op, unset⟩

/-- Settles O33: by the four statuses an operation can return. -/
theorem statusesNameTheirOperations : Obligations.StatusesNameTheirOperations := by
  intro i s t st rest h hr
  cases exec_returned_status h hr with
  | ok => simp [stOk]
  | fail op => simp [stFail, op]
  | nomode op unset => simp [stNomode, op]
  | short reg len op asked => simp [stShort, op, asked]

/-- Settles O29: the frames ahead of a signal are passed over, and frames alone hold no signal. -/
theorem waitingBlockTakesOnlyResetOrCancel : Obligations.WaitingBlockTakesOnlyResetOrCancel := by
  intro s Fs hq
  constructor
  · intro k others hi
    have hsig : takeSignal s.host.inputs = some (framesOnly Fs ++ others) := by
      rw [hi, takeSignal_of_frames]
      rfl
    exact ⟨_, step_of_signal_while_waiting hq hsig, ⟨rfl, rfl, rfl, rfl⟩, rfl, rfl⟩
  · intro hi
    have hnone : takeSignal s.host.inputs = none := by
      rw [hi, ← List.append_nil (framesOnly Fs), takeSignal_of_frames]
      rfl
    exact step_of_stuck hq hnone

/-- Settles O26: a cut before the first event, after the one event of a plain read, or among the three of a primed one. -/
theorem rdregCutLeavesAPartialTrace : Obligations.RdregCutLeavesAPartialTrace := by
  intro reg len s k hc hk
  have hcut : CutAfter (.rdreg reg len) s
      ((if 0x30 ≤ reg.toNat ∧ reg.toNat ≤ 0x79 then [.write Config.selectReg [reg, len], .settle, .read reg len]
        else [.read reg len]).take k) := by
    obtain _ | k := k
    · exact cutAfter_zero rfl hc
    obtain h0 | ⟨hl, hp, h1⟩ | ⟨hl, hlo, hhi, h3, hw⟩ := hk
    · cases h0
    · obtain rfl : k = 0 := Nat.succ.inj h1
      rw [if_neg hp]
      exact cutAfter_rdreg_unprimed hc hl hp
    · rw [if_pos ⟨hlo, hhi⟩]
      exact cutAfter_rdreg_primed hc h3 hl ⟨hlo, hhi⟩ fun hne => hw.resolve_left (by omega)
  obtain ⟨d, n, -, he, hserves⟩ := hcut
  exact ⟨_, he, s.cancelledWith_blockReset d, rfl, hserves.log⟩

/-- Settles O27: a cut before the write, after it, or after its settle. -/
theorem wrregCutLeavesAPartialTrace : Obligations.WrregCutLeavesAPartialTrace := by
  intro reg data s k hc hk
  have hcut : CutAfter (.wrreg reg data) s ([.write reg data, .settle].take k) := by
    obtain rfl | ⟨hl, rfl⟩ | ⟨hl, rfl, hw⟩ := hk
    · exact cutAfter_zero rfl hc
    · exact cutAfter_wrreg hc (by decide) hl fun hne => absurd rfl hne
    · exact cutAfter_wrreg hc (by decide) hl fun _ => hw
  obtain ⟨d, n, -, he, hserves⟩ := hcut
  exact ⟨_, he, s.cancelledWith_blockReset d, rfl, hserves.log⟩

end Sys2Proof

/-! ### The family of 70_reset_and_hazards.md: reset between operations, silent transfers, settled transfers (rules R120 to R131) -/

namespace Sys2Proof.Machine

open Safety

/-! #### A transfer that never returns (rule R131) -/

section Silence

variable {s : State} {evs : List BusEvent} {q q' : Pseq} {d d' : Downstream} {n : Nat} {e : BusEvent} {reg len : Byte}

/-- An operation left where it has issued `evs`, all of which the agent has seen, waits there (log entry 6). -/
theorem State.midOperation_waits (hd : s.downstream.Serves evs n d) : Waits s (s.midOperation evs q d) q evs :=
  ⟨rfl, hd.log, rfl, rfl, rfl, rfl, rfl⟩

/-- A silent transfer is one event more, and ends the operation there. -/
theorem State.midOperation_transfer_silent (hn : noCutWithin n s = true) (hlt : evs.length < n)
    (ha : (d.sees e).answer e = (none, d')) :
    (s.midOperation evs q d).transfer q' e = .over (s.midOperation (evs ++ [e]) q' d') := by
  rw [State.transfer_wait (State.midOperation_not_due hn hlt) ha, State.midOperation_issue]
  rfl

/-- The first transfer of a register operation, silent. -/
theorem State.transfer_first_silent (hn : noCutWithin n s = true) (hpos : 0 < n)
    (ha : (s.downstream.sees e).answer e = (none, d)) :
    s.transfer q e = .over (s.midOperation [e] q d) := by
  have h := State.midOperation_transfer_silent (q := s.pseq) (q' := q) (evs := []) hn hpos ha
  rwa [State.midOperation_nil] at h

/-- An agent whose next known answer is a silence is silent at the next transfer (log entry 6). -/
theorem Downstream.answer_of_never {rest : List BusAnswer} (h : d.answers = .never :: rest) (e : BusEvent) :
    ∃ d', (d.sees e).answer e = (none, d') := by
  simp [Downstream.answer, h]

/-- The priming write answered with status 0, the read silent: the operation stands in the read. -/
theorem State.readPrimed_of_read_silent (hn : noCutWithin 3 s = true) {w : BusReply} {d1 d2 : Downstream}
    (hw : w.st = 0)
    (ha : (s.downstream.sees (.write Config.selectReg [reg, len])).answer (.write Config.selectReg [reg, len])
      = (some w, d1))
    (hr : ((d1.sees .settle).sees (.read reg len)).answer (.read reg len) = (none, d2)) :
    s.readPrimed reg len =
      s.midOperation [.write Config.selectReg [reg, len], .settle, .read reg len] .read d2 := by
  rw [State.readPrimed, State.transfer_first hn (by decide) .primeWr ha, Phase.finish_go, if_neg (not_not_intro hw),
    State.midOperation_settle hn (by simp), Phase.finish_go, State.readRegisters,
    State.midOperation_transfer_silent hn (by simp) hr, Phase.finish_over]
  rfl

end Silence

/-! #### What a step that answers has issued -/

section Answered

variable {s t : State}

/-- A register operation that returned a response issued its events, and the response is one it can return after them. -/
theorem RegEnd.of_returned {evs : List BusEvent} {ok : List Byte → Prop} {waits : Pseq → Prop} {r : List Byte}
    (h : RegEnd s t evs ok waits) (hr : Returned s t r) :
    ok r ∧ t.downstream.log = s.downstream.log ++ evs ∧ t.trace = s.trace ++ evs := by
  obtain ⟨hlog, -, ⟨-, -, -, -, hrec, -⟩ | ⟨r', hok, -, -, -, htrace, hrec⟩ | ⟨-, -, -, -, hrec⟩⟩ := h.fields
  · exact absurd hr (not_returned_of_received_eq hrec)
  · exact ⟨eq_of_returned hrec hr ▸ hok, hlog, htrace⟩
  · exact absurd hr (not_returned_of_received_eq hrec)

/-- A trace that ends in another event than a write does not end in one. -/
theorem not_endsInWrite_append {e : BusEvent} (he : ∀ a data, e ≠ .write a data) (evs : List BusEvent) :
    ¬ EndsInWrite (evs ++ [e]) := by
  rintro ⟨earlier, a, data, h⟩
  exact he a data (List.singleton_inj.mp (List.append_inj' h rfl).2)

/-- After a write alone RDREG does not answer ST_OK: it reads first (rule R69). -/
theorem not_endsInWrite_of_rdregResponse {len : Byte} {evs : List BusEvent} {rest : List Byte}
    (h : rdregResponse len evs (stOk :: rest)) : ¬ EndsInWrite evs := by
  rcases h with hfail | ⟨⟨earlier, reg, rfl⟩, -⟩
  · exact absurd (List.cons.inj hfail).1 (by decide)
  · exact not_endsInWrite_append (fun _ _ => by simp) earlier

/-- After a write alone WRREG does not answer ST_OK: it settles first (rules R27, R71). -/
theorem not_endsInWrite_of_wrregResponse {reg : Byte} {data : List Byte} {evs : List BusEvent} {rest : List Byte}
    (h : wrregResponse reg data evs (stOk :: rest)) : ¬ EndsInWrite evs := by
  rcases h with hfail | ⟨-, rfl⟩
  · exact absurd (List.cons.inj hfail).1 (by decide)
  · exact not_endsInWrite_append (fun _ _ => by simp) [.write reg data]

/-- From `s` to `t` an operation was answered with status `st`: the agent has seen its trace, which on ST_OK does not end
in a write (rules R27, R36). -/
structure AnsweredWith (s t : State) (st : Byte) : Prop where
  log : t.downstream.log = s.downstream.log ++ t.trace
  settled : st = stOk → ¬ EndsInWrite t.trace

/-- An operation begun with an empty trace. -/
theorem exec_answeredWith {i : Instr} {st : Byte} {rest : List Byte} (htrace : s.trace = []) (h : exec i s = .next t)
    (hr : Returned s t (st :: rest)) : AnsweredWith s t st := by
  cases hi : isRegAccess i with
  | false =>
    obtain ⟨m, f, r, he⟩ := exec_of_not_isRegAccess hi s
    obtain rfl := Host.Outcome.next.inj (h.symm.trans (he s.downstream))
    exact ⟨by simp [htrace], fun _ => by simp [EndsInWrite, htrace]⟩
  | true =>
    cases i with
    | rdreg reg len =>
      obtain ⟨u, evs, hu, -, hend⟩ := execRdreg_cases reg len s
      obtain rfl : t = u := Host.Outcome.next.inj (h.symm.trans hu)
      obtain ⟨hok, hlog, hgrown⟩ := hend.of_returned hr
      obtain rfl : t.trace = evs := by simpa [htrace] using hgrown
      exact ⟨hlog, fun hst => not_endsInWrite_of_rdregResponse (hst ▸ hok)⟩
    | wrreg reg data =>
      obtain ⟨u, evs, hu, -, hend⟩ := execWrreg_cases reg data s
      obtain rfl : t = u := Host.Outcome.next.inj (h.symm.trans hu)
      obtain ⟨hok, hlog, hgrown⟩ := hend.of_returned hr
      obtain rfl : t.trace = evs := by simpa [htrace] using hgrown
      exact ⟨hlog, fun hst => not_endsInWrite_of_wrregResponse (hst ▸ hok)⟩
    | _ => cases hi

/-- A step that answers has accepted a frame, and so begun with an empty trace. -/
theorem step_answeredWith {st : Byte} {rest : List Byte} (h : step s = .next t) (hr : Returned s t (st :: rest)) :
    AnsweredWith s t st := by
  rcases step_next_cases h with ⟨-, rfl⟩ | ⟨_, rfl⟩ | ⟨F, c, others, e, -, -, -, rfl⟩ | ⟨F, c, others, i, -, -, -, he⟩
  · exact absurd hr (not_returned_of_received_eq rfl)
  · exact absurd hr (not_returned_of_received_eq rfl)
  · exact ⟨by simp [State.illegalFrame], fun _ => by simp [EndsInWrite, State.illegalFrame]⟩
  · obtain ⟨hlog, hsettled⟩ := exec_answeredWith (s := s.accept c others) rfl he hr
    exact ⟨hlog, hsettled⟩

end Answered

end Sys2Proof.Machine

namespace Sys2Proof.Safety

open Machine

/-! #### The line to the device (rule R126, log entry 27) -/

/-- Whether an event may directly follow another: after a write only its settle may (rule R27). -/
def SettleAfterWrite : BusEvent → BusEvent → Prop
  | .write _ _, next => next = .settle
  | .settle, _ => True
  | .read _ _, _ => True

/-- Within the events of one operation a write that anything follows is followed by its settle. -/
theorem OperationEvents.isChain {evs : List BusEvent} (h : OperationEvents evs) : evs.IsChain SettleAfterWrite := by
  cases h with
  | none => simp
  | write a data => simp
  | settledWrite a data => simp [SettleAfterWrite]
  | plainRead a n => simp
  | primedRead a n => simp [SettleAfterWrite]

section Line

variable {before line : List LineEvent}

theorem blockPart_append (before line : List LineEvent) :
    blockPart (before ++ line) = blockPart before ++ blockPart line := List.filterMap_append

theorem blockPart_ofBlock_cons (e : BusEvent) (line : List LineEvent) :
    blockPart (.ofBlock e :: line) = e :: blockPart line := rfl

/-- Two settled lines, one after the other, are settled. -/
theorem SettledThroughout.append (hbefore : SettledThroughout before) (hline : SettledThroughout line) :
    SettledThroughout (before ++ line) := by
  intro pre x post h hx
  rcases List.append_eq_append_iff.mp h with ⟨l, rfl, hl⟩ | ⟨_ | ⟨y, l⟩, rfl, hl⟩
  · exact hline l x post hl hx
  · exact hline [] x post hl.symm hx
  · obtain ⟨rfl, rfl⟩ := List.cons.inj hl
    obtain ⟨p, rest, rfl, hp⟩ := hbefore pre x l rfl hx
    exact ⟨p, rest ++ line, rfl, hp⟩

/-- Where every write of the block but a last one is followed by its settle, the last event is no write, and the transport
pauses after every read, the line is settled. -/
theorem settledThroughout_of_blockPart (hchain : (blockPart line).IsChain SettleAfterWrite)
    (hend : ¬ EndsInWrite (blockPart line)) (hread : PostReadSettle line) : SettledThroughout line := by
  rintro pre x post rfl hx
  cases x with
  | transportPause => cases hx
  | ofBlock e =>
    cases e with
    | settle => cases hx
    | read a n =>
      obtain ⟨rest, rfl⟩ := hread pre a n post rfl
      exact ⟨_, rest, rfl, rfl⟩
    | write a data =>
      rw [blockPart_append, blockPart_ofBlock_cons] at hchain hend
      cases post with
      | nil => exact absurd ⟨_, a, data, rfl⟩ hend
      | cons y post =>
        cases y with
        | transportPause => exact ⟨_, post, rfl, rfl⟩
        | ofBlock e =>
          rw [blockPart_ofBlock_cons, List.isChain_append_cons_cons] at hchain
          obtain ⟨-, rfl, -⟩ := hchain
          exact ⟨_, post, rfl, rfl⟩

end Line

end Sys2Proof.Safety

namespace Sys2Proof

open Machine Safety

/-- Settles O28: the silent transfer is the operation's first, or the read that follows an answered priming write and its
settle. -/
theorem silentTransferLeavesTheBlockWaiting : Obligations.SilentTransferLeavesTheBlockWaiting := by
  intro s
  refine ⟨fun rest hnever hn => ?_, fun reg len hl hlo hhi hn w d1 d2 ha hw hr => ?_⟩
  · have first (q : Pseq) (e : BusEvent) : ∃ t, s.transfer q e = .over t ∧ Waits s t q [e] := by
      obtain ⟨d, ha⟩ := Downstream.answer_of_never hnever e
      exact ⟨_, State.transfer_first_silent hn Nat.one_pos ha,
        State.midOperation_waits ((Downstream.Serves.refl s.downstream).answered ha)⟩
    refine ⟨fun reg len hl hp => ?_, fun reg len hl hlo hhi => ?_, fun reg data hl => ?_⟩
    · obtain ⟨t, ht, hwaits⟩ := first .read (.read reg len)
      exact ⟨t, by rw [exec_rdreg_unprimed hn hl hp, State.readRegisters, ht, Phase.finish_over], hwaits⟩
    · obtain ⟨t, ht, hwaits⟩ := first .primeWr (.write Config.selectReg [reg, len])
      exact ⟨t, by rw [exec_rdreg_primed hn hl ⟨hlo, hhi⟩, State.readPrimed, ht, Phase.finish_over], hwaits⟩
    · obtain ⟨t, ht, hwaits⟩ := first .write (.write reg data)
      exact ⟨t, by rw [exec_wrreg_some hn hl, State.writeRegisters, ht, Phase.finish_over], hwaits⟩
  · have hseen := (((Downstream.Serves.refl s.downstream).answered ha).sees .settle).answered hr
    exact ⟨_, by rw [exec_rdreg_primed hn hl ⟨hlo, hhi⟩, State.readPrimed_of_read_silent hn hw ha hr],
      State.midOperation_waits hseen⟩

/-- Settles O43: the step puts its trace, the events of one operation, on the line, and in these every write is followed
by its settle unless it is the last. -/
theorem everyTransferIsFollowedByAPause : Obligations.EveryTransferIsFollowedByAPause := by
  intro s t st rest h hr
  obtain ⟨hlog, hsettled⟩ := step_answeredWith h hr
  refine ⟨hsettled, fun hend before line hbefore hsb hall hread => hsb.append ?_⟩
  have hline : blockPart line = t.trace := by
    rw [blockPart_append, hbefore, hlog] at hall
    exact List.append_cancel_left hall
  obtain ⟨evs, hevs, hadds⟩ := step_adds h
  obtain rfl : evs = t.trace := List.append_cancel_left (hadds.log.symm.trans hlog)
  exact settledThroughout_of_blockPart (hline ▸ hevs.isChain) (hline ▸ hend) hread

/-- Settles O7: the block meets nothing at its inputs. -/
theorem idleBlockWaits : Obligations.IdleBlockWaits := by
  intro s hq hi
  exact step_of_no_input hq hi

/-- Settles O8: the signal leaves the host's inputs, and the block alone is reset. -/
theorem resetInputResetsTheBlock : Obligations.ResetInputResetsTheBlock := by
  intro s k others hq hi
  exact ⟨_, step_of_signal hq hi, ⟨rfl, rfl, rfl, rfl⟩, rfl, rfl⟩

end Sys2Proof
